-- ==== Sys2Proof/Word.lean ====
section
/-! DEFINITION. The words of CA-CORE: 8-bit data (00_scope.md R9 XLEN, R11) and the 9-bit program counter
(10_state.md R21). -/

namespace Sys2Proof

/-- A register, a memory cell, an operand byte, the flags register: an unsigned value 0..255 (00_scope.md R11). -/
abbrev Byte := BitVec 8

/-- The program counter: 9 bits, of which only 0..256 are reachable (10_state.md R21; log entry 4). -/
abbrev PcWord := BitVec 9

/-- A general register's number, 0..7 (10_state.md R15). -/
abbrev Reg := Fin 8

end Sys2Proof
end

