-- ==== Sys2Proof/Config.lean ====
section
/-! DEFINITION. What is fixed for the machine: the implementation parameters of 00_scope.md R9, the names that the
opcode table is indexed by, and the type of the configuration table OPCODE_MAP (30_encoding.md, its opening warning;
92_eei_decisions.md D3). The table's values stand in Decode.lean. -/

namespace Sys2Proof

/-- The ten operations (00_scope.md R4): the closed result type of the opcode decoder (30_encoding.md R66). -/
inductive Op where
  | ldi | prn | mul | add | cmp | push | pop | call | ret | hlt
  deriving DecidableEq, Repr

/-- OPCODE_MAP: one opcode byte for each operation (00_scope.md R9). -/
structure OpcodeMap where
  ldi : Byte
  prn : Byte
  mul : Byte
  add : Byte
  cmp : Byte
  push : Byte
  pop : Byte
  call : Byte
  ret : Byte
  hlt : Byte
  deriving DecidableEq, Repr

/-- MEM_SIZE: 256 cells, addresses 0..255 (00_scope.md R9, 20_memory.md R33). -/
abbrev Config.memSize : Nat := 256

/-- NREG: eight general registers (00_scope.md R9, 10_state.md R15). -/
abbrev Config.nReg : Nat := 8

/-- SP_INDEX: R7 is the stack pointer (00_scope.md R9, 10_state.md R16). -/
abbrev Config.spIndex : Reg := 7

/-- SP_RESET (00_scope.md R9, 10_state.md R20; 90_conflicts.md C9). -/
abbrev Config.spReset : Byte := 0xFF

/-- R_INIT, the reset values of R0 to R6, which the spec leaves OPEN (10_state.md R20, 92_eei_decisions.md D8).
DESIGN CHOICE, unsafe: this is the value `State.reset` names, zero for each (log entry 2). The model argument itself
is the argument of `State.resetWith`, and statements about reset hold for every value of it. -/
def Config.rInit : Fin 7 → Byte := fun _ => 0x00

end Sys2Proof
end

