-- ==== Sys2Proof/Syntax.lean ====
section
/-! DEFINITION. The instructions of CA-CORE (00_scope.md R4), one constructor for each row of spec/opcode_table.json.
An operand is the whole operand byte as fetched (30_encoding.md R55, R56): a register byte of 8 or more can be written
down, and the instruction that holds it raises InvalidRegister (30_encoding.md R68). -/

namespace Sys2Proof

/-- One instruction with its operand bytes (30_encoding.md R52). -/
inductive Instr where
  /-- LDI: load immediate (40_ldi.md R73). -/
  | ldi (ra imm : Byte)
  /-- PRN: print a register (41_output.md R74). -/
  | prn (ra : Byte)
  /-- MUL: multiply (42_alu.md R85). -/
  | mul (ra rb : Byte)
  /-- ADD: add (42_alu.md R86). -/
  | add (ra rb : Byte)
  /-- CMP: compare (42_alu.md R87). -/
  | cmp (ra rb : Byte)
  /-- PUSH: push a register (43_stack.md R92). -/
  | push (ra : Byte)
  /-- POP: pop into a register (43_stack.md R93). -/
  | pop (ra : Byte)
  /-- CALL: call the address held in a register (44_control.md R94). -/
  | call (ra : Byte)
  /-- RET: return (44_control.md R95). -/
  | ret
  /-- HLT: halt (44_control.md R96). -/
  | hlt
  deriving DecidableEq, Repr

end Sys2Proof
end

