-- ==== Sys2Proof/WellFormed.lean ====
section
/-! DEFINITION. The check on an instruction's operands: every register operand byte is below 8 (30_encoding.md R55,
R68; 10_state.md R18). LDI's immediate is never checked. -/

namespace Sys2Proof

/-- A register operand byte names a register (10_state.md R18). The byte is not masked (log entry 18). -/
abbrev Byte.namesReg (b : Byte) : Bool := decide (b.toNat < 8)

/-- Every register operand of the instruction names a register (30_encoding.md R68). -/
def Instr.wellFormed : Instr → Bool
  | .ldi ra _ => Byte.namesReg ra
  | .prn ra => Byte.namesReg ra
  | .mul ra rb => Byte.namesReg ra && Byte.namesReg rb
  | .add ra rb => Byte.namesReg ra && Byte.namesReg rb
  | .cmp ra rb => Byte.namesReg ra && Byte.namesReg rb
  | .push ra => Byte.namesReg ra
  | .pop ra => Byte.namesReg ra
  | .call ra => Byte.namesReg ra
  | .ret => true
  | .hlt => true

end Sys2Proof
end

