-- ==== Sys2Proof/Decode.lean ====
section
/-! DEFINITION. The opcode map, the decoder (30_encoding.md R57 to R59, R66, R67) and the encoder, both written from
the one map. The decoder reads the three bytes of a fetch (30_encoding.md R64) and refuses by name. Register operands
are checked by the instruction's meaning, after the decoder's presence checks (30_encoding.md R67, R68). -/

namespace Sys2Proof

/-- The ten operations in the order of the opcode table. -/
def Op.all : List Op := [.ldi, .prn, .mul, .add, .cmp, .push, .pop, .call, .ret, .hlt]

/-- The number of operand bytes (30_encoding.md R52). -/
def Op.arity : Op → Nat
  | .ldi | .mul | .add | .cmp => 2
  | .prn | .push | .pop | .call => 1
  | .ret | .hlt => 0

/-- The width in bytes: one more than the operand count (30_encoding.md R51). -/
def Op.width (op : Op) : Nat := 1 + op.arity

/-- The byte a map gives an operation. -/
def OpcodeMap.byteOf (m : OpcodeMap) : Op → Byte
  | .ldi => m.ldi
  | .prn => m.prn
  | .mul => m.mul
  | .add => m.add
  | .cmp => m.cmp
  | .push => m.push
  | .pop => m.pop
  | .call => m.call
  | .ret => m.ret
  | .hlt => m.hlt

/-- The operation whose byte this is; all 8 bits are compared (30_encoding.md R57). -/
def OpcodeMap.lookup (m : OpcodeMap) (b : Byte) : Option Op :=
  Op.all.find? fun op => m.byteOf op == b

/-- OPCODE_MAP with the values of 30_encoding.md R57. PRESUMED, unsafe: the spec marks the byte values as general
knowledge (92_eei_decisions.md D3; log entry 1). -/
def opcodeMap : OpcodeMap where
  ldi := 0b10000010
  prn := 0b01000111
  mul := 0b10100010
  add := 0b10100000
  cmp := 0b10100111
  push := 0b01000101
  pop := 0b01000110
  call := 0b01010000
  ret := 0b00010001
  hlt := 0b00000001

/-- The operation an instruction performs. -/
def Instr.op : Instr → Op
  | .ldi _ _ => .ldi
  | .prn _ => .prn
  | .mul _ _ => .mul
  | .add _ _ => .add
  | .cmp _ _ => .cmp
  | .push _ => .push
  | .pop _ => .pop
  | .call _ => .call
  | .ret => .ret
  | .hlt => .hlt

/-- The operand bytes of an instruction, in ascending addresses (30_encoding.md R52). -/
def Instr.operands : Instr → List Byte
  | .ldi ra imm => [ra, imm]
  | .prn ra => [ra]
  | .mul ra rb => [ra, rb]
  | .add ra rb => [ra, rb]
  | .cmp ra rb => [ra, rb]
  | .push ra => [ra]
  | .pop ra => [ra]
  | .call ra => [ra]
  | .ret => []
  | .hlt => []

/-- What one fetch delivers: the opcode byte, and the two bytes after it, each `none` (the spec's absent value) where
its address is 256 or more (30_encoding.md R64). -/
structure Fetched where
  b0 : Byte
  b1 : Option Byte
  b2 : Option Byte
  deriving DecidableEq, Repr

/-- Why a fetch holds no instruction: the opcode byte is not in the map (30_encoding.md R66), or operand byte k (1 or
2) is consumed and absent (30_encoding.md R67). -/
inductive DecodeError where
  | invalidInstruction
  | missingByte (k : Nat)
  deriving DecidableEq, Repr

/-- An instruction that consumes one operand byte (30_encoding.md R67). -/
def oneOperand (f : Fetched) (mk : Byte → Instr) : Except DecodeError Instr :=
  match f.b1 with
  | none => .error (.missingByte 1)
  | some a => .ok (mk a)

/-- An instruction that consumes two operand bytes, byte 1 checked first (30_encoding.md R67). -/
def twoOperands (f : Fetched) (mk : Byte → Byte → Instr) : Except DecodeError Instr :=
  match f.b1 with
  | none => .error (.missingByte 1)
  | some a =>
    match f.b2 with
    | none => .error (.missingByte 2)
    | some b => .ok (mk a b)

/-- The instruction of a known operation, from the operand bytes it consumes. -/
def Op.withOperands (op : Op) (f : Fetched) : Except DecodeError Instr :=
  match op with
  | .ldi => twoOperands f .ldi
  | .prn => oneOperand f .prn
  | .mul => twoOperands f .mul
  | .add => twoOperands f .add
  | .cmp => twoOperands f .cmp
  | .push => oneOperand f .push
  | .pop => oneOperand f .pop
  | .call => oneOperand f .call
  | .ret => .ok .ret
  | .hlt => .ok .hlt

/-- The decoder for a given map (30_encoding.md R66, R67). -/
def OpcodeMap.decode (m : OpcodeMap) (f : Fetched) : Except DecodeError Instr :=
  match m.lookup f.b0 with
  | none => .error .invalidInstruction
  | some op => op.withOperands f

/-- The decoder of this machine. -/
def decode (f : Fetched) : Except DecodeError Instr := opcodeMap.decode f

/-- The encoder for a given map: the opcode byte, then the operand bytes (30_encoding.md R51, R52). -/
def OpcodeMap.encode (m : OpcodeMap) (i : Instr) : List Byte := m.byteOf i.op :: i.operands

/-- The encoder of this machine. -/
def encode (i : Instr) : List Byte := opcodeMap.encode i

/-- The fetch of a run of bytes, `none` if there is no opcode byte. -/
def Fetched.ofBytes : List Byte → Option Fetched
  | [] => none
  | b0 :: rest => some ⟨b0, rest[0]?, rest[1]?⟩

/-- The decoder on a run of bytes: the instruction at its head and the bytes it leaves (30_encoding.md R59: bytes that
are not consumed are left alone). An empty run lacks byte 0. -/
def OpcodeMap.decodeBytes (m : OpcodeMap) (bs : List Byte) : Except DecodeError (Instr × List Byte) :=
  match Fetched.ofBytes bs with
  | none => .error (.missingByte 0)
  | some f =>
    match m.decode f with
    | .error e => .error e
    | .ok i => .ok (i, bs.drop i.op.width)

/-- Byte k of an instruction word numbered as spec/opcode_table.json numbers it: byte 0 in bits 7:0. -/
def tableByte (nbits w k : Nat) : Byte := BitVec.ofNat 8 ((w % 2 ^ nbits) >>> (8 * k))

/-- The three bytes of an instruction word, in ascending addresses; bits from nbits on are zero. -/
def tableBytes (nbits w : Nat) : List Byte := [tableByte nbits w 0, tableByte nbits w 1, tableByte nbits w 2]

/-- The instruction this decoder reads from an instruction word of the opcode table. -/
def decodeTableWord (nbits w : Nat) : Option Instr :=
  match opcodeMap.decodeBytes (tableBytes nbits w) with
  | .ok (i, _) => some i
  | .error _ => none

end Sys2Proof
end

