-- ==== Sys2Proof/Machine/State.lean ====
section
/-! DEFINITION. The machine's state: the block's State record, the memory and the output list (10_state.md, head of the
file), the fault record (60_exceptions.md R104), the reasons a step can stop, and the state after reset
(70_reset_and_hazards.md R117). -/

namespace Sys2Proof.Machine

/-- The fault kinds of 60_exceptions.md R99 to R102. -/
inductive FaultKind where
  /-- The opcode byte is none of the ten (R99). -/
  | invalidInstruction
  /-- An access outside 0..255 (R100). -/
  | outOfBounds
  /-- A register operand byte of 8 or more (R101). -/
  | invalidRegister
  /-- Listed by the spec, raised by no rule of it (R102, 42_alu.md R83; log entry 20). -/
  | aluUnsupported
  deriving DecidableEq, Repr

/-- The detail of a fault record: `addr` for OutOfBounds, `index` for InvalidRegister, `none` for the other kinds
(60_exceptions.md R104). -/
inductive FaultDetail where
  | none
  | addr (a : Nat)
  | index (b : Byte)
  deriving DecidableEq, Repr

/-- The fault record (60_exceptions.md R104). `opcode` is absent for an OutOfBounds at fetch. -/
structure FaultRecord where
  kind : FaultKind
  pc : PcWord
  opcode : Option Byte
  detail : FaultDetail
  deriving DecidableEq, Repr

/-- The run state (10_state.md R27). -/
inductive RunState where
  | running
  | halted
  | error (rec : FaultRecord)
  deriving DecidableEq, Repr

/-- The single execution mode (60_exceptions.md R110; log entry 15). -/
inductive Mode where
  | single
  deriving DecidableEq, Repr

/-- Memory as the list of its cells that are not 0x00, addresses strictly rising. An address that is not listed reads
0x00: the memory is "zero-filled" at construction (20_memory.md R36). -/
abbrev Memory := List Host.Cell

/-- The whole state of the machine (10_state.md, 20_memory.md R36, 41_output.md R75). -/
structure State where
  /-- x[0] to x[7]; x[7] is the stack pointer (10_state.md R15, R16). -/
  regs : Vector Byte 8
  /-- The address of the instruction to fetch (10_state.md R21). -/
  pc : PcWord
  /-- FL: bit 0 equal, bit 1 greater, bit 2 less, bits 7:3 reserved zero (10_state.md R24). -/
  fl : Byte
  /-- Running, Halted or Error (10_state.md R27). -/
  run : RunState
  /-- M[0..255] (20_memory.md R33, R36). -/
  mem : Memory
  /-- The bytes emitted by PRN, oldest first (41_output.md R75). -/
  out : List Byte
  /-- The execution mode (60_exceptions.md R110, 70_reset_and_hazards.md R117). -/
  mode : Mode
  deriving DecidableEq, Repr

/-- Why a step has no next state. A fault of the hardware is not one of these: it moves to the run state Error, a next
state (60_exceptions.md R98). Both reasons are raised by `step` alone, for a block that is not Running and so "has no
step" (10_state.md R28). Safe: the machine stops where the spec has no step (log entry 16). -/
inductive Fault where
  /-- The run state is Halted. Raised by `step`; safe. -/
  | halted
  /-- The run state is Error with this record. Raised by `step`; safe. -/
  | inError (rec : FaultRecord)
  deriving DecidableEq, Repr

/-- Why the model gives an instruction no meaning. No arm of `exec` uses it: all ten instructions have a meaning. -/
inductive Refusal where
  /-- An instruction without a meaning yet. Raised by `exec`'s refused arms, of which there are none; safe. -/
  | notModelled (mnemonic : String)
  deriving DecidableEq, Repr

/-- What executing an instruction answers. -/
abbrev Result := Host.Outcome State Fault Refusal

/-- The state after reset for given reset values of R0 to R6, the spec's open parameter R_INIT
(70_reset_and_hazards.md R117; 92_eei_decisions.md D8). FL's 0x00 is the spec's own value (D9; log entry 3). -/
def State.resetWith (rInit : Fin 7 → Byte) : State where
  regs := #v[rInit 0, rInit 1, rInit 2, rInit 3, rInit 4, rInit 5, rInit 6, Config.spReset]
  pc := 0
  fl := 0x00
  run := .running
  mem := []
  out := []
  mode := .single

/-- The machine right after reset, no program loaded. R0 to R6 hold the values `Config.rInit` names (DESIGN CHOICE,
unsafe; log entry 2). -/
def State.reset : State := State.resetWith Config.rInit

end Sys2Proof.Machine
end

