-- ==== Sys2Proof/Machine/Flags.lean ====
section
/-! DEFINITION. The flags register's bits (10_state.md R24), the comparison that computes them (42_alu.md R82), and the
ALU function (42_alu.md R77 to R83). -/

namespace Sys2Proof.Machine

/-- FL.E, bit 0: equal (10_state.md R24). -/
def flagE : Byte := 0b00000001

/-- FL.G, bit 1: greater-than (10_state.md R24). -/
def flagG : Byte := 0b00000010

/-- FL.L, bit 2: less-than (10_state.md R24). -/
def flagL : Byte := 0b00000100

/-- FL.E of a state. -/
def State.flE (s : State) : Bool := s.fl.getLsbD 0

/-- FL.G of a state. -/
def State.flG (s : State) : Bool := s.fl.getLsbD 1

/-- FL.L of a state. -/
def State.flL (s : State) : Bool := s.fl.getLsbD 2

/-- The flags value of comparing a with b as unsigned numbers (42_alu.md R82). DESIGN CHOICE of the spec, unsafe: G
means that the FIRST operand is greater, and the comparison is unsigned (92_eei_decisions.md D26, D28; log
entry 19). -/
def compareFlags (a b : Byte) : Byte :=
  if a.toNat = b.toNat then flagE
  else if a.toNat > b.toNat then flagG
  else flagL

/-- The ALU's operation select: exactly five values (42_alu.md R77, R83). -/
inductive AluOp where
  | add | mul | inc | dec | cmp
  deriving DecidableEq, Repr

/-- The constant second value that INC and DEC are given (42_alu.md R77). -/
def aluOne : Byte := 1

/-- The ALU (42_alu.md R77 to R82): each result is taken exactly and then reduced mod 256. INC and DEC use the
constant 1 and not the second value. -/
def alu (op : AluOp) (a b : Byte) : Byte :=
  match op with
  | .add => BitVec.ofNat 8 (a.toNat + b.toNat)
  | .mul => BitVec.ofNat 8 (a.toNat * b.toNat)
  | .inc => BitVec.ofNat 8 (a.toNat + 1)
  | .dec => BitVec.ofInt 8 ((a.toNat : Int) - 1)
  | .cmp => compareFlags a b

end Sys2Proof.Machine
end

