-- ==== Sys2Proof/Machine/Ops.lean ====
section
/-! DEFINITION. The named operations on the state: memory (20_memory.md R34, R37), registers (00_scope.md R12), the
stack manager (43_stack.md R88, R89), the output port (41_output.md R75), the control-flow mux (30_encoding.md R70),
raising a fault (60_exceptions.md R98, R104) and reset, the only way out of a stopped run (70_reset_and_hazards.md
R120). -/

namespace Sys2Proof.Machine

/-- The canonical form from address lo on: addresses rise strictly, stay below 256, and no listed cell is 0x00. -/
def Memory.wfFrom (lo : Nat) : Memory → Bool
  | [] => true
  | (a, v) :: rest => decide (lo ≤ a) && decide (a < Config.memSize) && (v != 0x00) && Memory.wfFrom (a + 1) rest

/-- The one canonical form of memory. -/
def Memory.wf (m : Memory) : Bool := Memory.wfFrom 0 m

/-- What a cell holds; an address that is not listed holds 0x00 (20_memory.md R36, "zero-filled"). -/
def Memory.get : Memory → Nat → Byte
  | [], _ => 0x00
  | (b, w) :: rest, a => if a = b then w else Memory.get rest a

/-- Memory with one cell changed, in canonical form: writing 0x00 takes the cell out of the list. -/
def Memory.set : Memory → Nat → Byte → Memory
  | [], a, v => if v = 0x00 then [] else [(a, v)]
  | (b, w) :: rest, a, v =>
    if a < b then (if v = 0x00 then (b, w) :: rest else (a, v) :: (b, w) :: rest)
    else if a = b then (if v = 0x00 then rest else (a, v) :: rest)
    else (b, w) :: Memory.set rest a v

/-- MemRead(a, 1): `none` is the OutOfBounds condition (20_memory.md R34). -/
def memRead (a : Nat) (s : State) : Option Byte :=
  if a < Config.memSize then some (s.mem.get a) else none

/-- MemWrite(a, 1, v): `none` is the OutOfBounds condition (20_memory.md R34). -/
def memWrite (a : Nat) (v : Byte) (s : State) : Option State :=
  if a < Config.memSize then some { s with mem := s.mem.set a v } else none

/-- A read through the memory port, whose address is 8 bits and so never out of range (20_memory.md R35, R37). -/
def portRead (a : Byte) (s : State) : Byte := s.mem.get a.toNat

/-- A write through the memory port, whose address is 8 bits and so never out of range (20_memory.md R35, R37). -/
def portWrite (a v : Byte) (s : State) : State := { s with mem := s.mem.set a.toNat v }

/-- Writes bytes at ascending addresses from a; an address outside memory is skipped. The host port's writes (the
load of 20_memory.md R49, which never reaches such an address, and `State.withFetchWord`). -/
def pokeBytes : Nat → List Byte → State → State
  | _, [], s => s
  | a, v :: vs, s => pokeBytes (a + 1) vs ((memWrite a v s).getD s)

/-- x[i] (00_scope.md R12). -/
def reg (r : Reg) (s : State) : Byte := s.regs[r.val]

/-- x[i] <- v (00_scope.md R12). No register is hard-wired (10_state.md R17). -/
def setReg (r : Reg) (v : Byte) (s : State) : State := { s with regs := s.regs.set r.val v }

/-- sp, another name for x[7] (00_scope.md R12). -/
def sp (s : State) : Byte := reg Config.spIndex s

/-- FL <- v (00_scope.md R12). -/
def setFlags (v : Byte) (s : State) : State := { s with fl := v }

/-- push(v): decrement the stack pointer, then write at its new value (43_stack.md R88). The pointer wraps mod 256
and nothing faults (43_stack.md R91, D7; log entry 7). -/
def push (v : Byte) (s : State) : State :=
  let top := alu .dec (sp s) aluOne
  portWrite top v (setReg Config.spIndex top s)

/-- pop(): read at the stack pointer, then increment it; the value read and the state after (43_stack.md R89). The
cell read keeps its value; the pointer wraps mod 256 (43_stack.md R91, D7; log entry 7). -/
def pop (s : State) : Byte × State :=
  (portRead (sp s) s, setReg Config.spIndex (alu .inc (sp s) aluOne) s)

/-- emit(v): one output event, in FIFO order (41_output.md R75; log entry 13). -/
def emit (v : Byte) (s : State) : State := { s with out := s.out ++ [v] }

/-- The next-pc select that a handler gives (30_encoding.md R69). -/
inductive Select where
  | seq (width : Nat)
  | jump (t : Byte)
  | stop
  deriving DecidableEq, Repr

/-- The control-flow mux (30_encoding.md R70): a 9-bit sum, the zero-extended target, or the halt with pc unchanged
(D13; log entry 11). -/
def mux (sel : Select) (s : State) : State :=
  match sel with
  | .seq width => { s with pc := s.pc + BitVec.ofNat 9 width }
  | .jump t => { s with pc := BitVec.ofNat 9 t.toNat }
  | .stop => { s with run := .halted }

/-- Raising a fault: the run state becomes Error with the fault record, whose pc is that of the faulting step, and
nothing else changes (60_exceptions.md R98, R104, R108; D10, D12; log entries 8 and 10). There is no handler and no
return from it (60_exceptions.md R109). -/
def raise (kind : FaultKind) (opcode : Option Byte) (detail : FaultDetail) (s : State) : State :=
  { s with run := .error ⟨kind, s.pc, opcode, detail⟩ }

/-- Reset by the host, the only way out of Halted or Error (70_reset_and_hazards.md R120): the block is constructed
anew, for reset values rInit of R0 to R6. `none` while the block is Running, when no reset is applied (D20; log
entry 17). -/
def reconstruct (rInit : Fin 7 → Byte) (s : State) : Option State :=
  match s.run with
  | .running => none
  | .halted => some (State.resetWith rInit)
  | .error _ => some (State.resetWith rInit)

end Sys2Proof.Machine
end

