-- ==== Sys2Proof/Machine/Operands.lean ====
section
/-! DEFINITION. The operand forms: a register operand, which is the whole operand byte and must be below 8
(30_encoding.md R55, R68), and the opcode byte and width that the machine uses of an operation. An immediate is its
byte, unchanged (30_encoding.md R56), and needs no operation. -/

namespace Sys2Proof.Machine

/-- The opcode byte of an operation: the b0 of its fetch (30_encoding.md R57). -/
def opcodeByte (op : Op) : Byte := opcodeMap.byteOf op

/-- A register operand: the register it names, or the fault InvalidRegister with the offending byte, nothing else
changed (30_encoding.md R68; D22; log entry 18). -/
def withReg (op : Op) (b : Byte) (s : State) (k : Reg → Result) : Result :=
  if h : b.toNat < 8 then k ⟨b.toNat, h⟩
  else .next (raise .invalidRegister (some (opcodeByte op)) (.index b) s)

/-- Two register operands, byte 1 checked before byte 2 (30_encoding.md R68; D11; log entry 9). -/
def withTwoRegs (op : Op) (ba bb : Byte) (s : State) (k : Reg → Reg → Result) : Result :=
  withReg op ba s fun ra => withReg op bb s fun rb => k ra rb

/-- The sequential advance past an instruction of this operation (30_encoding.md R70, SEQ). -/
def advance (op : Op) (s : State) : State := mux (.seq op.width) s

end Sys2Proof.Machine
end

