-- ==== Sys2Proof/Machine/Arith.lean ====
section
/-! DEFINITION. The ALU instructions: MUL, ADD and CMP (42_alu.md). Both operands are read before the result is
written. -/

namespace Sys2Proof.Machine

/-- MUL ra rb: x[ra] <- x[ra] * x[rb] mod 256; FL unchanged (42_alu.md R85). -/
def execMul (ra rb : Byte) (s : State) : Result :=
  withTwoRegs .mul ra rb s fun a b => .next (advance .mul (setReg a (alu .mul (reg a s) (reg b s)) s))

/-- ADD ra rb: x[ra] <- x[ra] + x[rb] mod 256; FL unchanged (42_alu.md R86). -/
def execAdd (ra rb : Byte) (s : State) : Result :=
  withTwoRegs .add ra rb s fun a b => .next (advance .add (setReg a (alu .add (reg a s) (reg b s)) s))

/-- CMP ra rb: FL <- the comparison of x[ra] with x[rb]; no register written (42_alu.md R87). -/
def execCmp (ra rb : Byte) (s : State) : Result :=
  withTwoRegs .cmp ra rb s fun a b => .next (advance .cmp (setFlags (alu .cmp (reg a s) (reg b s)) s))

end Sys2Proof.Machine
end

