-- ==== Sys2Proof/Machine/Control.lean ====
section
/-! DEFINITION. Control transfer: CALL, RET and HLT (44_control.md). -/

namespace Sys2Proof.Machine

/-- CALL ra: push(pc + 2), then jump to x[ra] as it is after the push (44_control.md R94; D14; log entry 12). A
return address of 256 or more raises OutOfBounds before anything is written (D6; log entry 6). -/
def execCall (ra : Byte) (s : State) : Result :=
  withReg .call ra s fun a =>
    if s.pc.toNat + 2 < Config.memSize then
      let s' := push (BitVec.ofNat 8 (s.pc.toNat + 2)) s
      .next (mux (.jump (reg a s')) s')
    else .next (raise .outOfBounds (some (opcodeByte .call)) (.addr (s.pc.toNat + 2)) s)

/-- RET: pc <- pop(); no register but R7 is written (44_control.md R95; 90_conflicts.md C3). -/
def execRet (s : State) : Result := .next (mux (.jump (pop s).1) (pop s).2)

/-- HLT: run <- Halted, pc unchanged (44_control.md R96; D13; log entry 11). -/
def execHlt (s : State) : Result := .next (mux .stop s)

end Sys2Proof.Machine
end

