-- ==== Sys2Proof/Machine/DataMove.lean ====
section
/-! DEFINITION. Data movement and output: LDI (40_ldi.md) and PRN (41_output.md). -/

namespace Sys2Proof.Machine

/-- LDI ra imm: x[ra] <- imm (40_ldi.md R73). -/
def execLdi (ra imm : Byte) (s : State) : Result :=
  withReg .ldi ra s fun a => .next (advance .ldi (setReg a imm s))

/-- PRN ra: emit(x[ra]) (41_output.md R74). -/
def execPrn (ra : Byte) (s : State) : Result :=
  withReg .prn ra s fun a => .next (advance .prn (emit (reg a s) s))

end Sys2Proof.Machine
end

