-- ==== Sys2Proof/Machine/Stack.lean ====
section
/-! DEFINITION. The stack instructions: PUSH and POP (43_stack.md). -/

namespace Sys2Proof.Machine

/-- PUSH ra: push(x[ra]), the value taken before the decrement (43_stack.md R92, R88). -/
def execPush (ra : Byte) (s : State) : Result :=
  withReg .push ra s fun a => .next (advance .push (push (reg a s) s))

/-- POP ra: x[ra] <- pop(), the register written after the increment, so that POP R7 keeps the popped value
(43_stack.md R93). -/
def execPop (ra : Byte) (s : State) : Result :=
  withReg .pop ra s fun a => .next (advance .pop (setReg a (pop s).1 (pop s).2))

end Sys2Proof.Machine
end

