-- ==== Sys2Proof/Machine/Cycle.lean ====
section
/-! DEFINITION. The fetch unit (30_encoding.md R63, R64) and one fetch, decode and execute cycle of a Running block
(30_encoding.md R71). -/

namespace Sys2Proof.Machine

/-- The fetch unit: the byte at pc and the two after it, each absent where its address is 256 or more; `none` when pc
itself is (30_encoding.md R63, R64; D4, D5; log entries 4 and 5). All reads come before any write (R65). -/
def fetch (s : State) : Option Fetched :=
  match memRead s.pc.toNat s with
  | none => none
  | some b0 => some ⟨b0, memRead (s.pc.toNat + 1) s, memRead (s.pc.toNat + 2) s⟩

/-- The fault of a fetch that holds no instruction (30_encoding.md R66, R67). -/
def raiseDecode (e : DecodeError) (b0 : Byte) (s : State) : State :=
  match e with
  | .invalidInstruction => raise .invalidInstruction (some b0) .none s
  | .missingByte k => raise .outOfBounds (some b0) (.addr (s.pc.toNat + k)) s

/-- One cycle of a Running block (30_encoding.md R71). -/
def cycle (s : State) : Result :=
  match fetch s with
  | none => .next (raise .outOfBounds none (.addr s.pc.toNat) s)
  | some f =>
    match decode f with
    | .error e => .next (raiseDecode e f.b0 s)
    | .ok i => exec i s

/-- A step from any state: a block that is not Running has none (10_state.md R28; log entry 16). -/
def stepFrom (s : State) : Result :=
  match s.run with
  | .running => cycle s
  | .halted => .fault .halted
  | .error rec => .fault (.inError rec)

/-- A Running state with the bytes bs where the next fetch reads them (log entry 23). -/
def placeAtPc (bs : List Byte) (s : State) : State := pokeBytes s.pc.toNat bs { s with run := .running }

end Sys2Proof.Machine
end

