-- ==== Sys2Proof/Machine/Step.lean ====
section
/-! DEFINITION. The step of the machine (30_encoding.md R71, R72) and the host's aid that places one instruction where
the next step fetches it. -/

namespace Sys2Proof.Machine

/-- One step: one whole instruction of a Running block (30_encoding.md R71). -/
def step (s : State) : Host.Outcome State Fault Refusal := stepFrom s

/-- The state with an instruction word of the opcode table stored at pc, and Running so that a step is taken. The
bytes fit where pc is at most 253 (log entry 23). -/
def State.withFetchWord (s : State) (nbits w : Nat) : State := placeAtPc (tableBytes nbits w) s

end Sys2Proof.Machine
end

