-- ==== Sys2Proof/Machine/Assembler.lean ====
section
/-! DEFINITION. The assembly syntax of 30_encoding.md R61, read and written: a mnemonic followed by its operands,
separated by spaces; registers R0 to R7, immediates in decimal; statements separated by `;`; an optional comma between
operands (92_eei_decisions.md D27; log entry 25). It is notation: no step uses it. -/

namespace Sys2Proof.Machine

/-- A word of assembly text. -/
abbrev Token := List Char

/-- A token that is not empty, as a list of at most one. -/
def flushToken : Token → List Token
  | [] => []
  | c :: cs => [c :: cs]

/-- The tokens of one statement, given the characters of the token begun: spaces separate, a comma stands alone. -/
def tokensFrom : List Char → Token → List Token
  | [], cur => flushToken cur
  | c :: cs, cur =>
    if c = ' ' then flushToken cur ++ tokensFrom cs []
    else if c = ',' then flushToken cur ++ [','] :: tokensFrom cs []
    else tokensFrom cs (cur ++ [c])

/-- The statements of a text, given the characters of the statement begun: `;` separates. -/
def statementsFrom : List Char → List Char → List (List Char)
  | [], cur => [cur]
  | c :: cs, cur => if c = ';' then cur :: statementsFrom cs [] else statementsFrom cs (cur ++ [c])

/-- A decimal digit's value. -/
def digitValue (c : Char) : Option Nat :=
  if '0'.toNat ≤ c.toNat ∧ c.toNat ≤ '9'.toNat then some (c.toNat - '0'.toNat) else none

/-- The value of decimal digits, after a value already read. -/
def decimalFrom : Nat → List Char → Option Nat
  | n, [] => some n
  | n, c :: cs =>
    match digitValue c with
    | none => none
    | some d => decimalFrom (10 * n + d) cs

/-- An immediate in decimal, 0..255 (30_encoding.md R56, R61). -/
def parseImm (t : Token) : Option Byte :=
  match t with
  | [] => none
  | c :: cs =>
    match decimalFrom 0 (c :: cs) with
    | none => none
    | some n => if n < 256 then some (BitVec.ofNat 8 n) else none

/-- A register, R0 to R7 (30_encoding.md R61). -/
def parseReg (t : Token) : Option Byte :=
  match t with
  | ['R', d] =>
    match digitValue d with
    | none => none
    | some n => if n < 8 then some (BitVec.ofNat 8 n) else none
  | _ => none

/-- The mnemonic of an operation. -/
def Op.mnemonic : Op → Token
  | .ldi => ['L', 'D', 'I']
  | .prn => ['P', 'R', 'N']
  | .mul => ['M', 'U', 'L']
  | .add => ['A', 'D', 'D']
  | .cmp => ['C', 'M', 'P']
  | .push => ['P', 'U', 'S', 'H']
  | .pop => ['P', 'O', 'P']
  | .call => ['C', 'A', 'L', 'L']
  | .ret => ['R', 'E', 'T']
  | .hlt => ['H', 'L', 'T']

/-- The operands of a statement, with the optional comma between two of them taken out. -/
def splitOperands : List Token → Option (List Token)
  | [] => some []
  | [a] => some [a]
  | [a, b] => some [a, b]
  | [a, c, b] => if c = [','] then some [a, b] else none
  | _ => none

/-- One register operand. -/
def parseR (mk : Byte → Instr) : List Token → Option Instr
  | [a] => (parseReg a).map mk
  | _ => none

/-- Two operands, the first a register and the second read by p. -/
def parseTwo (p : Token → Option Byte) (mk : Byte → Byte → Instr) : List Token → Option Instr
  | [a, b] =>
    match parseReg a, p b with
    | some x, some y => some (mk x y)
    | _, _ => none
  | _ => none

/-- No operand. -/
def parseN (i : Instr) : List Token → Option Instr
  | [] => some i
  | _ => none

/-- The instruction of an operation with these operands. -/
def parseOperands (op : Op) (args : List Token) : Option Instr :=
  match op with
  | .ldi => parseTwo parseImm .ldi args
  | .prn => parseR .prn args
  | .mul => parseTwo parseReg .mul args
  | .add => parseTwo parseReg .add args
  | .cmp => parseTwo parseReg .cmp args
  | .push => parseR .push args
  | .pop => parseR .pop args
  | .call => parseR .call args
  | .ret => parseN .ret args
  | .hlt => parseN .hlt args

/-- One statement of assembly text. -/
def parseStatement (text : List Char) : Option Instr :=
  match tokensFrom text [] with
  | [] => none
  | m :: args =>
    match Op.all.find? (fun op => decide (Op.mnemonic op = m)), splitOperands args with
    | some op, some ops => parseOperands op ops
    | _, _ => none

/-- All statements, or none if one of them is not an instruction. -/
def parseAll : List (List Char) → Option (List Instr)
  | [] => some []
  | t :: ts =>
    match parseStatement t, parseAll ts with
    | some i, some is => some (i :: is)
    | _, _ => none

/-- A text of statements separated by `;` (30_encoding.md R61). -/
def parseProgram (text : String) : Option (List Instr) := parseAll (statementsFrom text.toList [])

/-- The digit of a value below ten. -/
def digitChar (d : Nat) : Char := Char.ofNat ('0'.toNat + d % 10)

/-- A byte in decimal, no leading zeros. -/
def decimalOf (b : Byte) : Token :=
  if b.toNat < 10 then [digitChar b.toNat]
  else if b.toNat < 100 then [digitChar (b.toNat / 10), digitChar b.toNat]
  else [digitChar (b.toNat / 100), digitChar (b.toNat / 10), digitChar b.toNat]

/-- A register's name. A byte of 8 or more names no register and has no syntax. -/
def regName (b : Byte) : Token := 'R' :: decimalOf b

/-- A mnemonic and its operands, separated by spaces. -/
def Op.statement (op : Op) (args : List Token) : List Char := Op.mnemonic op ++ args.flatMap (fun a => ' ' :: a)

/-- An instruction as a statement of assembly text (30_encoding.md R61). -/
def printStatement : Instr → List Char
  | .ldi ra imm => Op.statement .ldi [regName ra, decimalOf imm]
  | .prn ra => Op.statement .prn [regName ra]
  | .mul ra rb => Op.statement .mul [regName ra, regName rb]
  | .add ra rb => Op.statement .add [regName ra, regName rb]
  | .cmp ra rb => Op.statement .cmp [regName ra, regName rb]
  | .push ra => Op.statement .push [regName ra]
  | .pop ra => Op.statement .pop [regName ra]
  | .call ra => Op.statement .call [regName ra]
  | .ret => Op.statement .ret []
  | .hlt => Op.statement .hlt []

end Sys2Proof.Machine
end

