-- ==== Sys2Proof/Machine/HostPort.lean ====
section
/-! DEFINITION. The host port and the status port (00_scope.md R10): the program load (20_memory.md R49, R50), the boot
(70_reset_and_hazards.md R118) and what the status port shows (60_exceptions.md R104). Reset is `reconstruct` of
Ops.lean. -/

namespace Sys2Proof.Machine

/-- Why a launch is refused before any run (20_memory.md R49, R50; 60_exceptions.md R103). -/
inductive LaunchError where
  /-- More than 256 values (20_memory.md R49). -/
  | programTooLarge
  /-- A value outside 0..255 (20_memory.md R50; D16; log entry 14). -/
  | notAByte
  deriving DecidableEq, Repr

/-- load_program: each value into memory from address 0 on, or ProgramTooLarge and nothing written
(20_memory.md R49). -/
def loadProgram (vs : List Byte) (s : State) : Except LaunchError State :=
  if vs.length > Config.memSize then .error .programTooLarge else .ok (pokeBytes 0 vs s)

/-- Boot: construction, then one load of the whole program; the loop then runs from pc 0 (70_reset_and_hazards.md
R118). A load that fails, or a value that is no byte, starts no run (20_memory.md R50; D16; log entry 14).
DESIGN CHOICE, the model's own: when there are more than 256 values AND one of them is no byte, the spec refuses the
launch and does not say which reason is reported; the bytes are checked first, so `notAByte` is (log entry 26). -/
def launch (rInit : Fin 7 → Byte) (vs : List Nat) : Except LaunchError State :=
  if vs.all (fun v => decide (v < 256)) then
    loadProgram (vs.map (BitVec.ofNat 8)) (State.resetWith rInit)
  else .error .notAByte

/-- The status port: the run state and, in Error, the fault record it carries (60_exceptions.md R104). -/
def statusPort (s : State) : RunState := s.run

end Sys2Proof.Machine
end

