-- ==== Sys2Proof/Safety.lean ====
section
/-! DEFINITION. What claims about the machine are stated in: the invariant that every step keeps, the two ends of a run
(70_reset_and_hazards.md R124), what a frame leaves unchanged, and the check order of a step written directly from
30_encoding.md R71. -/

namespace Sys2Proof.Machine

/-- FL's legal values: no flag before the first CMP, exactly one of E, G and L after it, bits 7:3 zero
(10_state.md R24 to R26). -/
abbrev FlagsLegal (s : State) : Prop := s.fl = 0x00 ∨ s.fl = flagE ∨ s.fl = flagG ∨ s.fl = flagL

/-- pc is one of its reachable values 0..256 (10_state.md R21). -/
abbrev PcInRange (s : State) : Prop := s.pc.toNat ≤ 256

/-- A fault record as 60_exceptions.md R99 to R104 describe it: its pc is the pc it was raised at, AluUnsupported is
never raised, an illegal opcode byte is not in the map, an address is the first one past memory, and an index names no
register. -/
def RecordLegal (pc : PcWord) (r : FaultRecord) : Prop :=
  r.pc = pc ∧
  match r.kind with
  | .invalidInstruction => (∃ b, r.opcode = some b ∧ opcodeMap.lookup b = none) ∧ r.detail = .none
  | .outOfBounds => r.detail = .addr 256 ∧ (r.opcode = none ↔ pc.toNat = 256)
  | .invalidRegister => (∃ b op, r.opcode = some b ∧ opcodeMap.lookup b = some op) ∧
      ∃ i : Byte, r.detail = .index i ∧ 8 ≤ i.toNat
  | .aluUnsupported => False

/-- In Error, the record is a legal one for the pc, which the fault left unchanged (60_exceptions.md R98, R104). -/
def ErrorLegal (s : State) : Prop := ∀ r, s.run = .error r → RecordLegal s.pc r

/-- The invariant: memory in its canonical form, pc and FL at values the spec calls reachable, and a legal record in
Error. -/
structure StateInv (s : State) : Prop where
  mem_wf : s.mem.wf = true
  pc_inRange : PcInRange s
  flags_legal : FlagsLegal s
  error_legal : ErrorLegal s

/-- A normal end of a run (70_reset_and_hazards.md R124). -/
abbrev NormalEnd (s : State) : Prop := s.run = .halted

/-- A fault end of a run, never a successful one (70_reset_and_hazards.md R124). -/
def FaultEnd (s : State) : Prop := ∃ r, s.run = .error r

/-- A safe run: neither this state nor any state that the next k steps reach is a fault end
(70_reset_and_hazards.md R124: a fault end "is never a successful end"). -/
def SafeFor : Nat → State → Prop
  | 0, s => ¬ FaultEnd s
  | k + 1, s => ¬ FaultEnd s ∧ ∀ t, step s = .next t → SafeFor k t

/-- Every byte of memory reads the same, and so does every address outside memory. -/
def MemSame (s t : State) : Prop := ∀ a, memRead a t = memRead a s

/-- Every byte of memory but the one at a reads the same. -/
def MemSameBut (a : Byte) (s t : State) : Prop := ∀ a', a' ≠ a.toNat → memRead a' t = memRead a' s

/-- Every register outside the list reads the same. -/
def RegsSameBut (rs : List Reg) (s t : State) : Prop := ∀ r, r ∉ rs → reg r t = reg r s

/-- The byte at an address counted from pc, absent from 256 on (30_encoding.md R64). -/
abbrev byteAt (s : State) (k : Nat) : Option Byte := memRead (s.pc.toNat + k) s

/-- The first fault of a step in the order of 30_encoding.md R71 and 60_exceptions.md R106, read straight off the bytes
at pc with the opcode bytes of 30_encoding.md R57 written out; it uses neither the decoder nor a meaning. -/
def firstFault (s : State) : Option FaultRecord :=
  match byteAt s 0 with
  | none => some ⟨.outOfBounds, s.pc, none, .addr s.pc.toNat⟩
  | some b0 =>
    if b0 ∉ [0x82, 0x47, 0xA2, 0xA0, 0xA7, 0x45, 0x46, 0x50, 0x11, 0x01] then
      some ⟨.invalidInstruction, s.pc, some b0, .none⟩
    else if b0 ∈ [0x11, 0x01] then none
    else
      match byteAt s 1 with
      | none => some ⟨.outOfBounds, s.pc, some b0, .addr (s.pc.toNat + 1)⟩
      | some b1 =>
        if b0 ∈ [0x82, 0xA2, 0xA0, 0xA7] ∧ byteAt s 2 = none then
          some ⟨.outOfBounds, s.pc, some b0, .addr (s.pc.toNat + 2)⟩
        else if 8 ≤ b1.toNat then some ⟨.invalidRegister, s.pc, some b0, .index b1⟩
        else
          match byteAt s 2 with
          | none =>
            if b0 = 0x50 then some ⟨.outOfBounds, s.pc, some b0, .addr (s.pc.toNat + 2)⟩ else none
          | some b2 =>
            if b0 ∈ [0xA2, 0xA0, 0xA7] ∧ 8 ≤ b2.toNat then some ⟨.invalidRegister, s.pc, some b0, .index b2⟩
            else none

/-- The register operand bytes of an instruction, in the order they are checked (30_encoding.md R68). -/
def regOperands : Instr → List Byte
  | .ldi ra _ => [ra]
  | .prn ra => [ra]
  | .mul ra rb => [ra, rb]
  | .add ra rb => [ra, rb]
  | .cmp ra rb => [ra, rb]
  | .push ra => [ra]
  | .pop ra => [ra]
  | .call ra => [ra]
  | .ret => []
  | .hlt => []

/-- No two operations share an opcode byte. -/
def DistinctBytes (m : OpcodeMap) : Prop := ∀ op op', m.byteOf op = m.byteOf op' → op = op'

/-- The bytes bs stand in memory from pc on. -/
def BytesAtPc (bs : List Byte) (s : State) : Prop := ∀ k b, bs[k]? = some b → memRead (s.pc.toNat + k) s = some b

/-- The registers an instruction may write: its destination, and the stack pointer where it pushes or pops
(10_state.md R19). A byte of 8 or more names none. -/
def writtenRegs : Instr → List Nat
  | .ldi ra _ => [ra.toNat]
  | .prn _ => []
  | .mul ra _ => [ra.toNat]
  | .add ra _ => [ra.toNat]
  | .cmp _ _ => []
  | .push _ => [7]
  | .pop ra => [7, ra.toNat]
  | .call _ => [7]
  | .ret => [7]
  | .hlt => []

/-- The instructions that store a byte to memory (20_memory.md R35). -/
def stores : Instr → Bool
  | .push _ => true
  | .call _ => true
  | .ldi _ _ | .prn _ | .mul _ _ | .add _ _ | .cmp _ _ | .pop _ | .ret | .hlt => false

end Sys2Proof.Machine
end

