-- ==== Sys2Proof/Certificates/Slice0/Obligations.lean ====
section
/-! DEFINITION. The statements for the provers. A docstring names the rule a statement formalises; where a clause rests
on one of the spec's own choices (92_eei_decisions.md D<n>), it says so and names the log entry. -/

open Sys2Proof Sys2Proof.Machine

/-! ### Reset -/

/-- 10_state.md R22: pc is 0 after reset and the block is Running, whatever R0 to R6 hold. -/
def Obligations.ResetStartsRunningAtZero : Prop :=
  (∀ rInit, (State.resetWith rInit).pc = 0 ∧ (State.resetWith rInit).run = .running) ∧
    State.reset.pc = 0 ∧ State.reset.run = .running

/-- 70_reset_and_hazards.md, the table of reset values, for every value of R_INIT (D8). FL's 0 is the spec's own choice
D9 (log entry 3), the empty output list D15 (log entry 13). That State.reset is the instance at Config.rInit is the
model's choice (log entry 2). -/
def Obligations.ResetLeavesEveryField : Prop :=
  ∀ rInit : Fin 7 → Byte, ∀ s, s = State.resetWith rInit →
    reg 0 s = rInit 0 ∧ reg 1 s = rInit 1 ∧ reg 2 s = rInit 2 ∧ reg 3 s = rInit 3 ∧ reg 4 s = rInit 4 ∧
      reg 5 s = rInit 5 ∧ reg 6 s = rInit 6 ∧ reg 7 s = 0xFF ∧ s.pc = 0 ∧ s.fl = 0x00 ∧ s.run = .running ∧
      (∀ a, a < 256 → memRead a s = some 0x00) ∧ s.out = [] ∧ s.mode = .single ∧
      State.reset = State.resetWith Config.rInit

/-- The invariant of Safety.lean holds at reset, for every value of R_INIT. FL's reset value in it is D9 (log
entry 3). -/
def Obligations.ResetSatisfiesTheStateInvariant : Prop :=
  (∀ rInit, StateInv (State.resetWith rInit)) ∧ StateInv State.reset

/-- From every state that meets it, a step keeps the invariant: memory stays canonical, pc stays in 0..256, FL keeps
bits 7:3 zero and at most one flag, and a record in Error is one the spec describes. It rests on D4, D6, D9, D10, D12
and D22 (log entries 3, 4, 6, 8, 10, 18). -/
def Obligations.StepKeepsTheStateInvariant : Prop :=
  ∀ s t, StateInv s → step s = .next t → StateInv t

/-! ### The ALU -/

/-- 42_alu.md R78, R79: the sum and the product, taken exactly and reduced mod 256. -/
def Obligations.AluAddAndMulReduceMod256 : Prop :=
  ∀ a b : Byte, (alu .add a b).toNat = (a.toNat + b.toNat) % 256 ∧ (alu .mul a b).toNat = (a.toNat * b.toNat) % 256

/-- 42_alu.md R80, R81: increment and decrement mod 256, with their corners; pop uses INC and push uses DEC on the
stack pointer. -/
def Obligations.AluIncAndDecReduceMod256 : Prop :=
  (∀ a b : Byte, (alu .inc a b).toNat = (a.toNat + 1) % 256 ∧
      ((alu .dec a b).toNat : Int) = ((a.toNat : Int) - 1) % 256) ∧
    (∀ b : Byte, alu .inc 255 b = 0 ∧ alu .dec 0 b = 255) ∧
    ∀ s v, sp (pop s).2 = alu .inc (sp s) aluOne ∧ sp (push v s) = alu .dec (sp s) aluOne

/-- 42_alu.md, the CMP function: exactly one flag bit, by unsigned order, G for the first operand greater. Unsigned is
D26 and the operand order D28, the spec's own choices (log entry 19). -/
def Obligations.AluCompareSetsOneFlag : Prop :=
  ∀ a b : Byte, (alu .cmp a b = 0b00000001 ↔ a.toNat = b.toNat) ∧ (alu .cmp a b = 0b00000010 ↔ b.toNat < a.toNat) ∧
    (alu .cmp a b = 0b00000100 ↔ a.toNat < b.toNat) ∧
    (alu .cmp a b = 0b00000001 ∨ alu .cmp a b = 0b00000010 ∨ alu .cmp a b = 0b00000100)

/-- 42_alu.md, the integer laws of ADD and MUL, which the spec derives. -/
def Obligations.AluAddAndMulLaws : Prop :=
  ∀ a b c : Byte, alu .add a b = alu .add b a ∧ alu .add (alu .add a b) c = alu .add a (alu .add b c) ∧
    alu .mul a 0 = 0 ∧ alu .mul 0 a = 0 ∧ alu .mul a 1 = a ∧ alu .mul 1 a = a ∧ alu .mul 16 16 = 0

/-! ### Memory and the stack manager -/

/-- 20_memory.md R34: read and write fail outside 0..255 and only there; a write changes its one cell, which then reads
back (in a canonical memory), and nothing else of the state. -/
def Obligations.MemoryPortContract : Prop :=
  ∀ (s : State) (a : Nat) (v : Byte),
    (memRead a s = none ↔ ¬ a < 256) ∧ (memWrite a v s = none ↔ ¬ a < 256) ∧
      ∀ t, memWrite a v s = some t →
        (s.mem.wf = true → memRead a t = some v) ∧ (∀ a', a' ≠ a → memRead a' t = memRead a' s) ∧
          (∀ r, reg r t = reg r s) ∧ t.pc = s.pc ∧ t.fl = s.fl ∧ t.run = s.run ∧ t.out = s.out ∧ t.mode = s.mode

/-- 43_stack.md R88: push decrements the stack pointer through the ALU, then writes the value at its new address; a
push of the stack pointer itself stores the old one; nothing else changes. -/
def Obligations.PushDecrementsThenWrites : Prop :=
  ∀ (s : State) (v : Byte),
    sp (push v s) = alu .dec (sp s) aluOne ∧
      (s.mem.wf = true → memRead (sp (push v s)).toNat (push v s) = some v ∧
        memRead (sp (push (sp s) s)).toNat (push (sp s) s) = some (sp s)) ∧
      MemSameBut (sp (push v s)) s (push v s) ∧ RegsSameBut [7] s (push v s) ∧ (push v s).pc = s.pc ∧
      (push v s).fl = s.fl ∧ (push v s).run = s.run ∧ (push v s).out = s.out

/-- 43_stack.md R89: pop returns the byte at the stack pointer, then increments the pointer through the ALU; the cell
keeps its value and nothing else changes. -/
def Obligations.PopReadsThenIncrements : Prop :=
  ∀ s : State,
    memRead (sp s).toNat s = some (pop s).1 ∧ sp (pop s).2 = alu .inc (sp s) aluOne ∧ MemSame s (pop s).2 ∧
      RegsSameBut [7] s (pop s).2 ∧ (pop s).2.pc = s.pc ∧ (pop s).2.fl = s.fl ∧ (pop s).2.run = s.run ∧
      (pop s).2.out = s.out

/-- 43_stack.md, the bounds of the stack pointer: it wraps both ways and neither way faults. The policy is D7, the
spec's own choice (log entry 7). -/
def Obligations.StackPointerWrapsWithoutFault : Prop :=
  ∀ (s : State) (v : Byte),
    (sp s = 0x00 → sp (push v s) = 0xFF ∧ (s.mem.wf = true → memRead 255 (push v s) = some v)) ∧
      (sp s = 0xFF → memRead 255 s = some (pop s).1 ∧ sp (pop s).2 = 0x00) ∧
      (push v s).run = s.run ∧ (pop s).2.run = s.run

/-! ### Each instruction: it completes, its result, its frame -/

/-- 40_ldi.md: LDI writes its immediate unchanged to the register, whichever it is, and advances pc by 3. -/
def Obligations.LdiLoadsItsImmediate : Prop :=
  ∀ (s : State) (ra imm : Byte) (h : ra.toNat < 8),
    ∃ t, exec (.ldi ra imm) s = .next t ∧ reg ⟨ra.toNat, h⟩ t = imm ∧ RegsSameBut [⟨ra.toNat, h⟩] s t ∧
      t.pc = s.pc + 3 ∧ t.fl = s.fl ∧ t.run = s.run ∧ t.out = s.out ∧ t.mode = s.mode ∧ MemSame s t

/-- 41_output.md: PRN emits the register's value, R7's too, writes nothing in the block and advances pc by 2. FIFO
order without backpressure is D15, the spec's own choice (log entry 13). -/
def Obligations.PrnEmitsTheRegister : Prop :=
  ∀ (s : State) (ra : Byte) (h : ra.toNat < 8),
    ∃ t, exec (.prn ra) s = .next t ∧ t.out = s.out ++ [reg ⟨ra.toNat, h⟩ s] ∧ RegsSameBut [] s t ∧
      t.pc = s.pc + 2 ∧ t.fl = s.fl ∧ t.run = s.run ∧ t.mode = s.mode ∧ MemSame s t

/-- 42_alu.md: MUL writes the product mod 256 of the two old values to its first register, leaves FL alone and advances
pc by 3. -/
def Obligations.MulMultipliesMod256 : Prop :=
  ∀ (s : State) (ra rb : Byte) (ha : ra.toNat < 8) (hb : rb.toNat < 8),
    ∃ t, exec (.mul ra rb) s = .next t ∧
      (reg ⟨ra.toNat, ha⟩ t).toNat = (reg ⟨ra.toNat, ha⟩ s).toNat * (reg ⟨rb.toNat, hb⟩ s).toNat % 256 ∧
      RegsSameBut [⟨ra.toNat, ha⟩] s t ∧ t.pc = s.pc + 3 ∧ t.fl = s.fl ∧ t.run = s.run ∧ t.out = s.out ∧
      t.mode = s.mode ∧ MemSame s t

/-- 42_alu.md: ADD writes the sum mod 256 of the two old values to its first register, leaves FL alone and advances pc
by 3. -/
def Obligations.AddAddsMod256 : Prop :=
  ∀ (s : State) (ra rb : Byte) (ha : ra.toNat < 8) (hb : rb.toNat < 8),
    ∃ t, exec (.add ra rb) s = .next t ∧
      (reg ⟨ra.toNat, ha⟩ t).toNat = ((reg ⟨ra.toNat, ha⟩ s).toNat + (reg ⟨rb.toNat, hb⟩ s).toNat) % 256 ∧
      RegsSameBut [⟨ra.toNat, ha⟩] s t ∧ t.pc = s.pc + 3 ∧ t.fl = s.fl ∧ t.run = s.run ∧ t.out = s.out ∧
      t.mode = s.mode ∧ MemSame s t

/-- 42_alu.md: CMP writes all of FL with the comparison of its two registers, writes no register and advances pc by 3.
Which operand is the greater is D28 and unsigned is D26, the spec's own choices (log entry 19). -/
def Obligations.CmpWritesTheComparison : Prop :=
  ∀ (s : State) (ra rb : Byte) (ha : ra.toNat < 8) (hb : rb.toNat < 8),
    ∃ t, exec (.cmp ra rb) s = .next t ∧
      t.fl = (if (reg ⟨ra.toNat, ha⟩ s).toNat = (reg ⟨rb.toNat, hb⟩ s).toNat then 0x01
        else if (reg ⟨rb.toNat, hb⟩ s).toNat < (reg ⟨ra.toNat, ha⟩ s).toNat then 0x02 else 0x04) ∧
      RegsSameBut [] s t ∧ t.pc = s.pc + 3 ∧ t.run = s.run ∧ t.out = s.out ∧ t.mode = s.mode ∧ MemSame s t

/-- 43_stack.md: PUSH stores the register's old value, R7's old value too, at the decremented stack pointer, which it
writes to R7, and advances pc by 2. Wrapping is D7, the spec's own choice (log entry 7). -/
def Obligations.PushStoresTheRegister : Prop :=
  ∀ (s : State) (ra : Byte) (h : ra.toNat < 8),
    ∃ t, exec (.push ra) s = .next t ∧ sp t = sp s - 1 ∧
      (s.mem.wf = true → memRead (sp s - 1).toNat t = some (reg ⟨ra.toNat, h⟩ s)) ∧ MemSameBut (sp s - 1) s t ∧
      RegsSameBut [7] s t ∧ t.pc = s.pc + 2 ∧ t.fl = s.fl ∧ t.run = s.run ∧ t.out = s.out ∧ t.mode = s.mode

/-- 43_stack.md: POP writes the byte at the stack pointer to its register, after the increment of R7, so that POP R7
ends with the popped byte; memory keeps every byte and pc advances by 2. Wrapping is D7, the spec's own choice (log
entry 7). -/
def Obligations.PopLoadsTheRegister : Prop :=
  ∀ (s : State) (ra : Byte) (h : ra.toNat < 8),
    ∃ t, exec (.pop ra) s = .next t ∧ some (reg ⟨ra.toNat, h⟩ t) = memRead (sp s).toNat s ∧
      (ra.toNat ≠ 7 → sp t = sp s + 1) ∧ RegsSameBut [7, ⟨ra.toNat, h⟩] s t ∧ MemSame s t ∧
      t.pc = s.pc + 2 ∧ t.fl = s.fl ∧ t.run = s.run ∧ t.out = s.out ∧ t.mode = s.mode

/-- 44_control.md: CALL pushes pc + 2 and jumps to its register as it is after the push, so that CALL R7 jumps to the
new stack pointer. That it needs pc + 2 below 256 is D6, and the read after the push D14, the spec's own choices (log
entries 6 and 12); wrapping is D7 (log entry 7). -/
def Obligations.CallPushesReturnAndJumps : Prop :=
  ∀ (s : State) (ra : Byte) (h : ra.toNat < 8), s.pc.toNat + 2 < 256 →
    ∃ t, exec (.call ra) s = .next t ∧ sp t = sp s - 1 ∧
      t.pc.toNat = (if ra.toNat = 7 then sp s - 1 else reg ⟨ra.toNat, h⟩ s).toNat ∧
      (s.mem.wf = true → ∃ b, memRead (sp s - 1).toNat t = some b ∧ b.toNat = s.pc.toNat + 2) ∧
      MemSameBut (sp s - 1) s t ∧ RegsSameBut [7] s t ∧ t.fl = s.fl ∧ t.run = s.run ∧ t.out = s.out ∧
      t.mode = s.mode

/-- 44_control.md: RET puts the byte at the stack pointer into pc and increments R7; it writes no other register and no
memory. Wrapping is D7, the spec's own choice (log entry 7). -/
def Obligations.RetPopsIntoPc : Prop :=
  ∀ s : State,
    ∃ t, exec .ret s = .next t ∧ (∃ b, memRead (sp s).toNat s = some b ∧ t.pc.toNat = b.toNat) ∧
      sp t = sp s + 1 ∧ RegsSameBut [7] s t ∧ MemSame s t ∧ t.fl = s.fl ∧ t.run = s.run ∧ t.out = s.out ∧
      t.mode = s.mode

/-- 44_control.md: HLT enters Halted and writes nothing else. That pc keeps the HLT's address is D13, the spec's own
choice (log entry 11). -/
def Obligations.HltHaltsTheBlock : Prop :=
  ∀ s : State,
    ∃ t, exec .hlt s = .next t ∧ t.run = .halted ∧ t.pc = s.pc ∧ RegsSameBut [] s t ∧ MemSame s t ∧
      t.fl = s.fl ∧ t.out = s.out ∧ t.mode = s.mode

/-! ### Faults -/

/-- 30_encoding.md, the register check: an instruction with a register operand byte of 8 or more raises InvalidRegister
with the first such byte, and changes nothing else. Reachability of the fault is D22, the order D11, the precise state
D10, the record D12, the spec's own choices (log entries 18, 9, 8, 10). -/
def Obligations.BadRegisterByteRaisesInvalidRegister : Prop :=
  (∀ i : Instr, i.wellFormed = false ↔ ∃ b, (regOperands i).find? (fun b => 8 ≤ b.toNat) = some b) ∧
    ∀ (s : State) (i : Instr) (b : Byte), (regOperands i).find? (fun b => 8 ≤ b.toNat) = some b →
      exec i s = .next { s with run := .error ⟨.invalidRegister, s.pc, (encode i)[0]?, .index b⟩ }

/-- 30_encoding.md section 8, step 3: exec of a CALL whose return address pc + 2 would be 256 or more raises OutOfBounds
with that address and changes nothing but the run state. A step reaches this only at pc 254 (address 256): at pc 255 it
faults at decode, with address pc + 1 = 256 (44_control.md), and never calls exec, so for any other pc this speaks of exec
alone (log entry 21). The fault is D6, the unchanged state D10 and the whole record D12, the spec's own choices (log
entries 6, 8 and 10). -/
def Obligations.CallWithoutReturnAddressFaults : Prop :=
  ∀ (s : State) (ra : Byte), ra.toNat < 8 → 256 ≤ s.pc.toNat + 2 →
    exec (.call ra) s =
      .next { s with run := .error ⟨.outOfBounds, s.pc, (encode (.call ra))[0]?, .addr (s.pc.toNat + 2)⟩ }

/-- 30_encoding.md, the decoder: it finds the operation of an opcode byte or Invalid, and an Invalid byte at pc raises
InvalidInstruction with pc and that byte. That nothing but the run state changes is D10, and the whole record, with no
detail, is D12, the spec's own choices (log entries 8 and 10). -/
def Obligations.InvalidOpcodeRaisesInvalidInstruction : Prop :=
  (∀ f i, decode f = .ok i → opcodeMap.lookup f.b0 = some i.op) ∧
    ∀ (s : State) (b0 : Byte), s.run = .running → memRead s.pc.toNat s = some b0 → opcodeMap.lookup b0 = none →
      step s = .next { s with run := .error ⟨.invalidInstruction, s.pc, some b0, .none⟩ }

/-- 30_encoding.md, the check order of a step: the step of a Running block raises exactly the first fault that the
order read off the bytes at pc finds, and where it finds none the step is no fault. The order and its cases are D4, D5,
D6, D10, D11, D12, D22 and the opcode bytes D3 (log entries 1, 4, 5, 6, 8, 9, 10, 18). -/
def Obligations.StepRaisesTheFirstFaultInOrder : Prop :=
  ∀ s : State, s.run = .running →
    (∀ r, firstFault s = some r → step s = .next { s with run := .error r }) ∧
      (firstFault s = none → ∃ t, step s = .next t ∧ ∀ r, t.run ≠ .error r)

/-- 60_exceptions.md, precise faults: a step that ends in Error changed nothing but the run state, and the record holds
its pc. The unchanged state is D10 and that every fault kind has a record D12, the spec's own choices (log entries 8
and 10). -/
def Obligations.FaultChangesOnlyTheRunState : Prop :=
  ∀ (s t : State) (r : FaultRecord), step s = .next t → t.run = .error r →
    t = { s with run := .error r } ∧ r.pc = s.pc

/-- 60_exceptions.md R102: no step raises AluUnsupported. -/
def Obligations.AluUnsupportedIsNeverRaised : Prop :=
  ∀ (s t : State) (r : FaultRecord), step s = .next t → t.run = .error r → r.kind ≠ .aluUnsupported

/-! ### The step -/

/-- 30_encoding.md: when the bytes at pc decode to an instruction, the step of a Running block is exec of it at that
state, and adds nothing around it (exec advances pc itself). -/
def Obligations.StepRunsTheDecodedInstruction : Prop :=
  ∀ (s : State) (b0 : Byte) (i : Instr), s.run = .running → memRead s.pc.toNat s = some b0 →
    decode ⟨b0, memRead (s.pc.toNat + 1) s, memRead (s.pc.toNat + 2) s⟩ = .ok i → step s = exec i s

/-- 30_encoding.md, 20_memory.md: when an instruction's encoding stands in memory at pc, the step runs that instruction
on those bytes, whatever follows them and whatever it stores. -/
def Obligations.StepRunsTheEncodedInstruction : Prop :=
  ∀ (s : State) (i : Instr), s.run = .running → BytesAtPc (encode i) s → step s = exec i s

/-- 10_state.md R28: a step is taken only when the block is Running; a Halted or Error state has no next state. -/
def Obligations.OnlyRunningBlocksStep : Prop :=
  ∀ s t : State, s.run ≠ .running → step s ≠ .next t

/-- The model's own choice (log entry 16): the step of a stopped block answers a fault that names why it is stopped. -/
def Obligations.StoppedBlockNamesWhy : Prop :=
  ∀ s : State, (s.run = .halted → step s = .fault .halted) ∧ ∀ r, s.run = .error r → step s = .fault (.inError r)

/-- 70_reset_and_hazards.md, timing: every step of a Running block is enabled; it moves to a next state, which is the
Error state where it faults (D1, D12; log entries 22 and 10). -/
def Obligations.RunningBlockAlwaysHasANextState : Prop :=
  ∀ s : State, s.run = .running → ∃ t, step s = .next t

/-- 30_encoding.md, the execution loop: a Running block becomes Halted only by a step on an HLT byte at pc. -/
def Obligations.OnlyHltHalts : Prop :=
  ∀ s t : State, step s = .next t → t.run = .halted → memRead s.pc.toNat s = some (opcodeMap.byteOf .hlt)

/-- 20_memory.md, coherence: the byte that PUSH or CALL stores is the one that the next fetch delivers when pc is the
address stored to, as after CALL R7. Rests on D6 and D14 for CALL (log entries 6 and 12). -/
def Obligations.StoredByteIsSeenByTheNextFetch : Prop :=
  (∀ (s : State) (ra : Byte) (h : ra.toNat < 8), s.mem.wf = true → s.pc.toNat + 2 = (sp s - 1).toNat →
      ∃ t f, exec (.push ra) s = .next t ∧ fetch t = some f ∧ f.b0 = reg ⟨ra.toNat, h⟩ s) ∧
    ∀ s : State, s.mem.wf = true → s.pc.toNat + 2 < 256 →
      ∃ t f, exec (.call 7) s = .next t ∧ fetch t = some f ∧ f.b0.toNat = s.pc.toNat + 2

/-! ### Whole-machine frames -/

/-- 10_state.md R25: only CMP writes FL, CMP leaves exactly one of E, G and L at 1 and the rest at 0 whatever FL held,
and no instruction reads FL: with another FL before, everything but FL comes out the same. -/
def Obligations.OnlyCmpWritesFlagsAndNoneReadsThem : Prop :=
  (∀ i s t, exec i s = .next t → (∀ ra rb, i ≠ .cmp ra rb) → t.fl = s.fl) ∧
    (∀ (s : State) (ra rb : Byte), ra.toNat < 8 → rb.toNat < 8 →
      ∃ t, exec (.cmp ra rb) s = .next t ∧
        ((t.flE, t.flG, t.flL) = (true, false, false) ∨ (t.flE, t.flG, t.flL) = (false, true, false) ∨
          (t.flE, t.flG, t.flL) = (false, false, true)) ∧ t.fl.toNat < 8 ∧
        ∀ f, ∃ u, exec (.cmp ra rb) (setFlags f s) = .next u ∧ u.fl = t.fl) ∧
    ∀ i s t f, exec i s = .next t → ∃ u, exec i (setFlags f s) = .next u ∧ setFlags t.fl u = t

/-- 41_output.md R76: no instruction but PRN changes the output list, no memory access does, and nothing reads it: with
another output list before, everything but the list comes out the same. -/
def Obligations.OnlyPrnReachesTheOutputPort : Prop :=
  (∀ i s t, exec i s = .next t → (∀ ra, i ≠ .prn ra) → t.out = s.out) ∧
    (∀ s t a v, memWrite a v s = some t → t.out = s.out) ∧
    ∀ i s t o, exec i s = .next t → ∃ u, exec i { s with out := o } = .next u ∧ { u with out := t.out } = t

/-- 41_output.md: the output list only grows, by at most one byte a step, at its end (D15, the spec's own choice; log
entry 13). -/
def Obligations.OutputListOnlyGrows : Prop :=
  ∀ s t : State, step s = .next t → t.out = s.out ∨ ∃ v, t.out = s.out ++ [v]

/-- 10_state.md, the table of register writes (which the spec derives): an instruction changes no register but its
destination and, where it pushes or pops, R7. -/
def Obligations.OnlyListedRegistersChange : Prop :=
  ∀ (i : Instr) (s t : State), exec i s = .next t → ∀ r : Reg, r.val ∉ writtenRegs i → reg r t = reg r s

/-- 20_memory.md, the block's memory accesses (which the spec derives): only PUSH and CALL store, one byte, at the
decremented stack pointer; every other byte, and with every other instruction every byte, stays. -/
def Obligations.OnlyPushAndCallStoreOneByte : Prop :=
  ∀ (i : Instr) (s t : State), exec i s = .next t →
    (stores i = false → MemSame s t) ∧ (stores i = true → MemSameBut (alu .dec (sp s) aluOne) s t)

/-! ### Sequences of two instructions -/

/-- 43_stack.md: PUSH then POP gives the pushed value in the popped register and, but for POP R7, the stack pointer
back; the other registers keep their values. Wrapping is D7, the spec's own choice (log entry 7). -/
def Obligations.PushThenPopRoundTrip : Prop :=
  ∀ (s : State) (ra rb : Byte) (ha : ra.toNat < 8) (hb : rb.toNat < 8), s.mem.wf = true →
    ∃ t u, exec (.push ra) s = .next t ∧ exec (.pop rb) t = .next u ∧
      reg ⟨rb.toNat, hb⟩ u = reg ⟨ra.toNat, ha⟩ s ∧ (rb.toNat ≠ 7 → sp u = sp s) ∧
      RegsSameBut [7, ⟨rb.toNat, hb⟩] s u ∧ MemSameBut (sp s - 1) s u ∧ u.pc = s.pc + 4 ∧ u.fl = s.fl

/-- 44_control.md: CALL then RET comes back to the instruction after the CALL with every register, the stack pointer
among them, unchanged. Its premise on pc is D6, the spec's own choice (log entry 6); wrapping is D7 (log entry 7). -/
def Obligations.CallThenRetRoundTrip : Prop :=
  ∀ (s : State) (ra : Byte), ra.toNat < 8 → s.pc.toNat + 2 < 256 → s.mem.wf = true →
    ∃ t u, exec (.call ra) s = .next t ∧ exec .ret t = .next u ∧ u.pc.toNat = s.pc.toNat + 2 ∧
      RegsSameBut [] s u ∧ MemSameBut (sp s - 1) s u ∧ u.fl = s.fl ∧ u.run = s.run ∧ u.out = s.out

/-! ### Encoding -/

/-- 30_encoding.md: for every opcode map whose bytes are distinct, and the machine's own is one, decoding an encoded
instruction gives it back with the bytes after it, for every operand byte; and a run of bytes that decodes is the
encoding of what it decodes to. -/
def Obligations.DecodeAndEncodeAgree : Prop :=
  DistinctBytes opcodeMap ∧
    ∀ m : OpcodeMap, DistinctBytes m →
      (∀ i rest, m.decodeBytes (m.encode i ++ rest) = .ok (i, rest)) ∧
        ∀ bs i rest, m.decodeBytes bs = .ok (i, rest) → bs = m.encode i ++ rest

/-- 30_encoding.md, the opcode map: each instruction's word, written out from the spec's encoding, decodes to it. The
byte values are D3, general knowledge by the spec's own mark (log entry 1). -/
def Obligations.OpcodeTableWordsDecode : Prop :=
  decodeTableWord 24 0b111111110000001110000010 = some (.ldi 3 255) ∧
    decodeTableWord 16 0b0000011101000111 = some (.prn 7) ∧
    decodeTableWord 24 0b000000010000000010100010 = some (.mul 0 1) ∧
    decodeTableWord 24 0b000000100000000110100000 = some (.add 1 2) ∧
    decodeTableWord 24 0b000000010000010010100111 = some (.cmp 4 1) ∧
    decodeTableWord 16 0b0000000101000101 = some (.push 1) ∧ decodeTableWord 16 0b0000001001000110 = some (.pop 2) ∧
    decodeTableWord 16 0b0000000101010000 = some (.call 1) ∧ decodeTableWord 8 0b00010001 = some .ret ∧
    decodeTableWord 8 0b00000001 = some .hlt

/-- 30_encoding.md, no other encodings: a byte that is not an operation's is illegal whatever follows it, and bytes that
an instruction does not consume do not matter. That an absent byte does not matter either is D5, the spec's own choice
(log entry 5). -/
def Obligations.UnconsumedBytesAreIgnored : Prop :=
  (∀ f : Fetched, (∃ op, f.b0 = opcodeMap.byteOf op) ∨ decode f = .error .invalidInstruction) ∧
    ∀ (op : Op) (b1 b2 : Option Byte),
      (op.arity = 0 → ∀ b1' b2', decode ⟨opcodeMap.byteOf op, b1, b2⟩ = decode ⟨opcodeMap.byteOf op, b1', b2'⟩) ∧
        (op.arity = 1 → ∀ b2', decode ⟨opcodeMap.byteOf op, b1, b2⟩ = decode ⟨opcodeMap.byteOf op, b1, b2'⟩)

/-- 30_encoding.md: 246 byte values are illegal, 0x00 and 0xFF among them (from the opcode map; D3, log entry 1). -/
def Obligations.IllegalBytesAreTheOther246 : Prop :=
  ((List.range 256).filter fun n => (opcodeMap.lookup (BitVec.ofNat 8 n)).isNone).length = 246 ∧
    opcodeMap.lookup 0xFF = none ∧ opcodeMap.lookup 0x00 = none

/-- 30_encoding.md, the assembly syntax: an instruction written as a statement reads back as itself, for every
instruction that has a syntax (D27, the spec's own choice; log entry 25). -/
def Obligations.AssemblyStatementRoundTrip : Prop :=
  ∀ i : Instr, i.wellFormed = true → parseStatement (printStatement i) = some i

/-! ### The host port -/

/-- 20_memory.md R49: more than 256 values fail with ProgramTooLarge, with no state written; up to 256 are stored from
address 0 on, every cell after them keeps its value, 0x00 where reset left it, and nothing but memory changes. -/
def Obligations.LoadProgramFillsMemoryFromZero : Prop :=
  ∀ (vs : List Byte) (s : State),
    (256 < vs.length → loadProgram vs s = .error .programTooLarge) ∧
      (vs.length ≤ 256 → ∃ t, loadProgram vs s = .ok t ∧
        (s.mem.wf = true → ∀ k v, vs[k]? = some v → memRead k t = some v) ∧
        (∀ a, vs.length ≤ a → memRead a t = memRead a s) ∧
        (∀ a rInit, s = State.resetWith rInit → vs.length ≤ a → a < 256 → memRead a t = some 0x00) ∧
        (∀ r, reg r t = reg r s) ∧ t.pc = s.pc ∧ t.fl = s.fl ∧ t.run = s.run ∧ t.out = s.out)

/-- 20_memory.md and 70_reset_and_hazards.md, boot: a launch starts, Running at pc 0 with the values in memory,
exactly when there are at most 256 values and each is a byte. The refusal of a value that is no byte is D16, the
spec's own choice (log entry 14). It says nothing of which reason a refused launch reports (log entry 26). -/
def Obligations.LaunchStartsExactlyOnByteProgramsThatFit : Prop :=
  ∀ (rInit : Fin 7 → Byte) (vs : List Nat),
    ((∃ t, launch rInit vs = .ok t) ↔ vs.length ≤ 256 ∧ ∀ v ∈ vs, v < 256) ∧
      ∀ t, launch rInit vs = .ok t → t.run = .running ∧ t.pc = 0 ∧ sp t = 0xFF ∧
        ∀ k v, vs[k]? = some v → ∃ b, memRead k t = some b ∧ b.toNat = v

/-- 70_reset_and_hazards.md: reset applies to a stopped block only and gives the state of reset again, memory
zero-filled; a Running block has none. D20, the spec's own choice (log entry 17). -/
def Obligations.ResetAppliesToStoppedBlocksOnly : Prop :=
  ∀ (rInit : Fin 7 → Byte) (s : State),
    (s.run = .running → reconstruct rInit s = none) ∧
      (s.run ≠ .running → ∃ t, reconstruct rInit s = some t ∧ t = State.resetWith rInit ∧ t.run = .running ∧
        ∀ a, a < 256 → memRead a t = some 0x00)
end

