-- ==== Sys2Proof/Laws/Decode.lean ====
section
/-! SUPPORT. The opcode map and the decoder: a byte that a map finds is its operation's byte, and what a decoded
instruction says of the bytes it came from. -/

namespace Sys2Proof

/-- The byte of an operation found in a map is the byte looked up. -/
theorem OpcodeMap.byteOf_of_lookup {m : OpcodeMap} {b : Byte} {op : Op} (h : m.lookup b = some op) :
    m.byteOf op = b := by
  have := List.find?_some h
  simpa using this

theorem Op.mem_all (op : Op) : op ∈ Op.all := by
  cases op <;> decide

/-- A byte the map does not find is the byte of no operation. -/
theorem OpcodeMap.lookup_eq_none {m : OpcodeMap} {b : Byte} : m.lookup b = none ↔ ∀ op, m.byteOf op ≠ b := by
  unfold OpcodeMap.lookup
  rw [List.find?_eq_none]
  exact ⟨fun h op => by simpa using h op (Op.mem_all op), fun h op _ => by simpa using h op⟩

/-- The machine's own map finds every operation by its byte. -/
@[simp] theorem opcodeMap_lookup_byteOf (op : Op) : opcodeMap.lookup (opcodeMap.byteOf op) = some op := by
  cases op <;> rfl

theorem Instr.length_operands (i : Instr) : i.operands.length = i.op.arity := by
  cases i <;> rfl

theorem OpcodeMap.length_encode (m : OpcodeMap) (i : Instr) : (m.encode i).length = i.op.width := by
  simp [OpcodeMap.encode, Op.width, Instr.length_operands, Nat.add_comm]

theorem oneOperand_ok {f : Fetched} {mk : Byte → Instr} {i : Instr} (h : oneOperand f mk = .ok i) :
    ∃ a, f.b1 = some a ∧ i = mk a := by
  unfold oneOperand at h
  split at h
  · cases h
  · rename_i a ha
    exact ⟨a, ha, (Except.ok.inj h).symm⟩

theorem twoOperands_ok {f : Fetched} {mk : Byte → Byte → Instr} {i : Instr} (h : twoOperands f mk = .ok i) :
    ∃ a b, f.b1 = some a ∧ f.b2 = some b ∧ i = mk a b := by
  unfold twoOperands at h
  split at h
  · cases h
  · rename_i a ha
    split at h
    · cases h
    · rename_i b hb
      exact ⟨a, b, ha, hb, (Except.ok.inj h).symm⟩

/-- What a decoded instruction says of the operand bytes: they are there, and they are its operands. -/
theorem Op.withOperands_ok {op : Op} {f : Fetched} {i : Instr} (h : op.withOperands f = .ok i) :
    i.op = op ∧ ∃ rest, [f.b1, f.b2] = i.operands.map some ++ rest := by
  cases op <;> simp only [Op.withOperands] at h
  case ret => cases h; exact ⟨rfl, _, rfl⟩
  case hlt => cases h; exact ⟨rfl, _, rfl⟩
  case ldi | mul | add | cmp =>
    obtain ⟨a, b, h1, h2, rfl⟩ := twoOperands_ok h
    exact ⟨rfl, [], by simp [h1, h2, Instr.operands]⟩
  case prn | push | pop | call =>
    obtain ⟨a, h1, rfl⟩ := oneOperand_ok h
    exact ⟨rfl, [f.b2], by simp [h1, Instr.operands]⟩

/-- Everything a successful decode says of the fetch. -/
theorem OpcodeMap.decode_ok {m : OpcodeMap} {f : Fetched} {i : Instr} (h : m.decode f = .ok i) :
    m.lookup f.b0 = some i.op ∧ ∃ rest, [f.b1, f.b2] = i.operands.map some ++ rest := by
  unfold OpcodeMap.decode at h
  split at h
  · cases h
  · rename_i op hop
    obtain ⟨rfl, hrest⟩ := Op.withOperands_ok h
    exact ⟨hop, hrest⟩

/-- Why a fetch of a known operation is refused: a consumed operand byte is absent, byte 1 first. -/
theorem Op.withOperands_error {op : Op} {f : Fetched} {e : DecodeError} (h : op.withOperands f = .error e) :
    (1 ≤ op.arity ∧ f.b1 = none ∧ e = .missingByte 1) ∨
      (op.arity = 2 ∧ f.b1 ≠ none ∧ f.b2 = none ∧ e = .missingByte 2) := by
  obtain ⟨b0, b1, b2⟩ := f
  cases op <;> cases b1 <;> cases b2 <;> simp_all [Op.withOperands, oneOperand, twoOperands, Op.arity]

/-- Everything a refused decode says of the fetch. -/
theorem OpcodeMap.decode_error {m : OpcodeMap} {f : Fetched} {e : DecodeError} (h : m.decode f = .error e) :
    (m.lookup f.b0 = none ∧ e = .invalidInstruction) ∨
      ∃ op, m.lookup f.b0 = some op ∧
        ((1 ≤ op.arity ∧ f.b1 = none ∧ e = .missingByte 1) ∨
          (op.arity = 2 ∧ f.b1 ≠ none ∧ f.b2 = none ∧ e = .missingByte 2)) := by
  unfold OpcodeMap.decode at h
  split at h
  · rename_i hn
    exact .inl ⟨hn, (Except.error.inj h).symm⟩
  · rename_i op hop
    exact .inr ⟨op, hop, Op.withOperands_error h⟩

end Sys2Proof
end

