-- ==== Sys2Proof/Laws/State.lean ====
section
/-! SUPPORT. What each named update of the state does to each field, and what reset puts in each: true by rfl, so that
no later proof unfolds a record update. -/

namespace Sys2Proof.Machine

@[simp] theorem memSize_eq : Config.memSize = 256 := rfl

/-! ### setReg r v -/

@[simp] theorem setReg_pc (r : Reg) (v : Byte) (s : State) : (setReg r v s).pc = s.pc := rfl
@[simp] theorem setReg_fl (r : Reg) (v : Byte) (s : State) : (setReg r v s).fl = s.fl := rfl
@[simp] theorem setReg_run (r : Reg) (v : Byte) (s : State) : (setReg r v s).run = s.run := rfl
@[simp] theorem setReg_mem (r : Reg) (v : Byte) (s : State) : (setReg r v s).mem = s.mem := rfl
@[simp] theorem setReg_out (r : Reg) (v : Byte) (s : State) : (setReg r v s).out = s.out := rfl
@[simp] theorem setReg_mode (r : Reg) (v : Byte) (s : State) : (setReg r v s).mode = s.mode := rfl
@[simp] theorem memRead_setReg (r : Reg) (v : Byte) (a' : Nat) (s : State) : memRead a' (setReg r v s) = memRead a' s := rfl

/-! ### setFlags v -/

@[simp] theorem setFlags_regs (v : Byte) (s : State) : (setFlags v s).regs = s.regs := rfl
@[simp] theorem setFlags_pc (v : Byte) (s : State) : (setFlags v s).pc = s.pc := rfl
@[simp] theorem setFlags_fl (v : Byte) (s : State) : (setFlags v s).fl = v := rfl
@[simp] theorem setFlags_run (v : Byte) (s : State) : (setFlags v s).run = s.run := rfl
@[simp] theorem setFlags_mem (v : Byte) (s : State) : (setFlags v s).mem = s.mem := rfl
@[simp] theorem setFlags_out (v : Byte) (s : State) : (setFlags v s).out = s.out := rfl
@[simp] theorem setFlags_mode (v : Byte) (s : State) : (setFlags v s).mode = s.mode := rfl
@[simp] theorem reg_setFlags (v : Byte) (r' : Reg) (s : State) : reg r' (setFlags v s) = reg r' s := rfl
@[simp] theorem memRead_setFlags (v : Byte) (a' : Nat) (s : State) : memRead a' (setFlags v s) = memRead a' s := rfl

/-! ### portWrite a v -/

@[simp] theorem portWrite_regs (a v : Byte) (s : State) : (portWrite a v s).regs = s.regs := rfl
@[simp] theorem portWrite_pc (a v : Byte) (s : State) : (portWrite a v s).pc = s.pc := rfl
@[simp] theorem portWrite_fl (a v : Byte) (s : State) : (portWrite a v s).fl = s.fl := rfl
@[simp] theorem portWrite_run (a v : Byte) (s : State) : (portWrite a v s).run = s.run := rfl
@[simp] theorem portWrite_mem (a v : Byte) (s : State) : (portWrite a v s).mem = s.mem.set a.toNat v := rfl
@[simp] theorem portWrite_out (a v : Byte) (s : State) : (portWrite a v s).out = s.out := rfl
@[simp] theorem portWrite_mode (a v : Byte) (s : State) : (portWrite a v s).mode = s.mode := rfl
@[simp] theorem reg_portWrite (a v : Byte) (r' : Reg) (s : State) : reg r' (portWrite a v s) = reg r' s := rfl

/-! ### emit v -/

@[simp] theorem emit_regs (v : Byte) (s : State) : (emit v s).regs = s.regs := rfl
@[simp] theorem emit_pc (v : Byte) (s : State) : (emit v s).pc = s.pc := rfl
@[simp] theorem emit_fl (v : Byte) (s : State) : (emit v s).fl = s.fl := rfl
@[simp] theorem emit_run (v : Byte) (s : State) : (emit v s).run = s.run := rfl
@[simp] theorem emit_mem (v : Byte) (s : State) : (emit v s).mem = s.mem := rfl
@[simp] theorem emit_out (v : Byte) (s : State) : (emit v s).out = s.out ++ [v] := rfl
@[simp] theorem emit_mode (v : Byte) (s : State) : (emit v s).mode = s.mode := rfl
@[simp] theorem reg_emit (v : Byte) (r' : Reg) (s : State) : reg r' (emit v s) = reg r' s := rfl
@[simp] theorem memRead_emit (v : Byte) (a' : Nat) (s : State) : memRead a' (emit v s) = memRead a' s := rfl

/-! ### mux (.seq w) -/

@[simp] theorem mux_seq_regs (w : Nat) (s : State) : (mux (.seq w) s).regs = s.regs := rfl
@[simp] theorem mux_seq_pc (w : Nat) (s : State) : (mux (.seq w) s).pc = s.pc + BitVec.ofNat 9 w := rfl
@[simp] theorem mux_seq_fl (w : Nat) (s : State) : (mux (.seq w) s).fl = s.fl := rfl
@[simp] theorem mux_seq_run (w : Nat) (s : State) : (mux (.seq w) s).run = s.run := rfl
@[simp] theorem mux_seq_mem (w : Nat) (s : State) : (mux (.seq w) s).mem = s.mem := rfl
@[simp] theorem mux_seq_out (w : Nat) (s : State) : (mux (.seq w) s).out = s.out := rfl
@[simp] theorem mux_seq_mode (w : Nat) (s : State) : (mux (.seq w) s).mode = s.mode := rfl
@[simp] theorem reg_mux_seq (w : Nat) (r' : Reg) (s : State) : reg r' (mux (.seq w) s) = reg r' s := rfl
@[simp] theorem memRead_mux_seq (w : Nat) (a' : Nat) (s : State) : memRead a' (mux (.seq w) s) = memRead a' s := rfl

/-! ### mux (.jump t) -/

@[simp] theorem mux_jump_regs (t : Byte) (s : State) : (mux (.jump t) s).regs = s.regs := rfl
@[simp] theorem mux_jump_pc (t : Byte) (s : State) : (mux (.jump t) s).pc = BitVec.ofNat 9 t.toNat := rfl
@[simp] theorem mux_jump_fl (t : Byte) (s : State) : (mux (.jump t) s).fl = s.fl := rfl
@[simp] theorem mux_jump_run (t : Byte) (s : State) : (mux (.jump t) s).run = s.run := rfl
@[simp] theorem mux_jump_mem (t : Byte) (s : State) : (mux (.jump t) s).mem = s.mem := rfl
@[simp] theorem mux_jump_out (t : Byte) (s : State) : (mux (.jump t) s).out = s.out := rfl
@[simp] theorem mux_jump_mode (t : Byte) (s : State) : (mux (.jump t) s).mode = s.mode := rfl
@[simp] theorem reg_mux_jump (t : Byte) (r' : Reg) (s : State) : reg r' (mux (.jump t) s) = reg r' s := rfl
@[simp] theorem memRead_mux_jump (t : Byte) (a' : Nat) (s : State) : memRead a' (mux (.jump t) s) = memRead a' s := rfl

/-! ### mux .stop -/

@[simp] theorem mux_stop_regs (s : State) : (mux .stop s).regs = s.regs := rfl
@[simp] theorem mux_stop_pc (s : State) : (mux .stop s).pc = s.pc := rfl
@[simp] theorem mux_stop_fl (s : State) : (mux .stop s).fl = s.fl := rfl
@[simp] theorem mux_stop_run (s : State) : (mux .stop s).run = .halted := rfl
@[simp] theorem mux_stop_mem (s : State) : (mux .stop s).mem = s.mem := rfl
@[simp] theorem mux_stop_out (s : State) : (mux .stop s).out = s.out := rfl
@[simp] theorem mux_stop_mode (s : State) : (mux .stop s).mode = s.mode := rfl
@[simp] theorem reg_mux_stop (r' : Reg) (s : State) : reg r' (mux .stop s) = reg r' s := rfl
@[simp] theorem memRead_mux_stop (a' : Nat) (s : State) : memRead a' (mux .stop s) = memRead a' s := rfl

/-! ### advance op -/

@[simp] theorem advance_regs (op : Op) (s : State) : (advance op s).regs = s.regs := rfl
@[simp] theorem advance_pc (op : Op) (s : State) : (advance op s).pc = s.pc + BitVec.ofNat 9 op.width := rfl
@[simp] theorem advance_fl (op : Op) (s : State) : (advance op s).fl = s.fl := rfl
@[simp] theorem advance_run (op : Op) (s : State) : (advance op s).run = s.run := rfl
@[simp] theorem advance_mem (op : Op) (s : State) : (advance op s).mem = s.mem := rfl
@[simp] theorem advance_out (op : Op) (s : State) : (advance op s).out = s.out := rfl
@[simp] theorem advance_mode (op : Op) (s : State) : (advance op s).mode = s.mode := rfl
@[simp] theorem reg_advance (op : Op) (r' : Reg) (s : State) : reg r' (advance op s) = reg r' s := rfl
@[simp] theorem memRead_advance (op : Op) (a' : Nat) (s : State) : memRead a' (advance op s) = memRead a' s := rfl

/-! ### raise k o d -/

@[simp] theorem raise_regs (k : FaultKind) (o : Option Byte) (d : FaultDetail) (s : State) : (raise k o d s).regs = s.regs := rfl
@[simp] theorem raise_pc (k : FaultKind) (o : Option Byte) (d : FaultDetail) (s : State) : (raise k o d s).pc = s.pc := rfl
@[simp] theorem raise_fl (k : FaultKind) (o : Option Byte) (d : FaultDetail) (s : State) : (raise k o d s).fl = s.fl := rfl
@[simp] theorem raise_run (k : FaultKind) (o : Option Byte) (d : FaultDetail) (s : State) : (raise k o d s).run = .error ⟨k, s.pc, o, d⟩ := rfl
@[simp] theorem raise_mem (k : FaultKind) (o : Option Byte) (d : FaultDetail) (s : State) : (raise k o d s).mem = s.mem := rfl
@[simp] theorem raise_out (k : FaultKind) (o : Option Byte) (d : FaultDetail) (s : State) : (raise k o d s).out = s.out := rfl
@[simp] theorem raise_mode (k : FaultKind) (o : Option Byte) (d : FaultDetail) (s : State) : (raise k o d s).mode = s.mode := rfl
@[simp] theorem reg_raise (k : FaultKind) (o : Option Byte) (d : FaultDetail) (r' : Reg) (s : State) : reg r' (raise k o d s) = reg r' s := rfl
@[simp] theorem memRead_raise (k : FaultKind) (o : Option Byte) (d : FaultDetail) (a' : Nat) (s : State) : memRead a' (raise k o d s) = memRead a' s := rfl

/-! ### registers -/

theorem reg_setReg (r r' : Reg) (v : Byte) (s : State) : reg r' (setReg r v s) = if r = r' then v else reg r' s := by
  simp only [reg, setReg, Vector.getElem_set, Fin.ext_iff]

@[simp] theorem reg_setReg_same (r : Reg) (v : Byte) (s : State) : reg r (setReg r v s) = v := by
  simp [reg_setReg]

@[simp] theorem reg_setReg_other {r r' : Reg} (h : r ≠ r') (v : Byte) (s : State) :
    reg r' (setReg r v s) = reg r' s := by
  simp [reg_setReg, h]

/-- Two states that agree on every field, the registers read one by one, are equal. -/
theorem State.eq_of_fields {s t : State} (hr : ∀ r, reg r t = reg r s) (hpc : t.pc = s.pc) (hfl : t.fl = s.fl)
    (hrun : t.run = s.run) (hmem : t.mem = s.mem) (hout : t.out = s.out) : t = s := by
  obtain ⟨tr, tpc, tfl, trun, tmem, tout, tmode⟩ := t
  obtain ⟨sr, spc, sfl, srun, smem, sout, smode⟩ := s
  cases tmode
  cases smode
  have : tr = sr := by
    ext i hi
    have := hr ⟨i, hi⟩
    simp only [reg] at this
    rw [this]
  simp_all

/-! ### reset -/

@[simp] theorem resetWith_pc (f : Fin 7 → Byte) : (State.resetWith f).pc = 0 := rfl
@[simp] theorem resetWith_fl (f : Fin 7 → Byte) : (State.resetWith f).fl = 0 := rfl
@[simp] theorem resetWith_run (f : Fin 7 → Byte) : (State.resetWith f).run = .running := rfl
@[simp] theorem resetWith_mem (f : Fin 7 → Byte) : (State.resetWith f).mem = [] := rfl
@[simp] theorem resetWith_out (f : Fin 7 → Byte) : (State.resetWith f).out = [] := rfl
@[simp] theorem resetWith_mode (f : Fin 7 → Byte) : (State.resetWith f).mode = .single := rfl
@[simp] theorem sp_resetWith (f : Fin 7 → Byte) : sp (State.resetWith f) = 0xFF := rfl

end Sys2Proof.Machine
end

