-- ==== Sys2Proof/Laws/Memory.lean ====
section
/-! SUPPORT. Memory: reading after writing, writes leave other cells alone, every memory operation keeps the canonical
form, and two memories in that form that read alike are equal. -/

namespace Sys2Proof.Machine

theorem Memory.wfFrom_cons {lo a : Nat} {v : Byte} {m : Memory} :
    Memory.wfFrom lo ((a, v) :: m) = true ↔ lo ≤ a ∧ a < 256 ∧ v ≠ 0 ∧ Memory.wfFrom (a + 1) m = true := by
  simp [Memory.wfFrom, and_assoc]

theorem Memory.wfFrom_weaken {lo lo' : Nat} {m : Memory} (h : lo' ≤ lo) (hm : Memory.wfFrom lo m = true) :
    Memory.wfFrom lo' m = true := by
  cases m with
  | nil => rfl
  | cons c m => rw [Memory.wfFrom_cons] at hm ⊢; exact ⟨h.trans hm.1, hm.2⟩

/-- Below the lower bound of a canonical list, every address reads 0. -/
theorem Memory.get_of_lt {lo : Nat} {m : Memory} {a : Nat} (hm : Memory.wfFrom lo m = true) (ha : a < lo) :
    m.get a = 0 := by
  induction m generalizing lo with
  | nil => rfl
  | cons c m ih =>
    obtain ⟨b, w⟩ := c
    rw [Memory.wfFrom_cons] at hm
    have : a ≠ b := by omega
    simp only [Memory.get, if_neg this]
    exact ih hm.2.2.2 (by omega)

/-- From 256 on, every address of a canonical list reads 0. -/
theorem Memory.get_of_ge {lo : Nat} {m : Memory} {a : Nat} (hm : Memory.wfFrom lo m = true) (ha : 256 ≤ a) :
    m.get a = 0 := by
  induction m generalizing lo with
  | nil => rfl
  | cons c m ih =>
    obtain ⟨b, w⟩ := c
    rw [Memory.wfFrom_cons] at hm
    have : a ≠ b := by omega
    simp only [Memory.get, if_neg this]
    exact ih hm.2.2.2

theorem Memory.set_keeps_wfFrom {lo : Nat} {m : Memory} {a : Nat} (v : Byte) (hm : Memory.wfFrom lo m = true)
    (hlo : lo ≤ a) (ha : a < 256) : Memory.wfFrom lo (m.set a v) = true := by
  induction m generalizing lo with
  | nil =>
    unfold Memory.set
    split
    · rfl
    · exact Memory.wfFrom_cons.2 ⟨hlo, ha, ‹_›, rfl⟩
  | cons c m ih =>
    obtain ⟨b, w⟩ := c
    have hm' := Memory.wfFrom_cons.1 hm
    obtain ⟨h1, h2, h3, h4⟩ := hm'
    unfold Memory.set
    split_ifs with hab hv heq hv
    · exact hm
    · exact Memory.wfFrom_cons.2 ⟨hlo, ha, hv, Memory.wfFrom_cons.2 ⟨hab, h2, h3, h4⟩⟩
    · exact Memory.wfFrom_weaken (by omega) h4
    · subst heq
      exact Memory.wfFrom_cons.2 ⟨h1, h2, hv, h4⟩
    · exact Memory.wfFrom_cons.2 ⟨h1, h2, h3, ih h4 (by omega)⟩

/-- A write inside memory keeps the canonical form. -/
theorem Memory.set_keeps_wf {m : Memory} {a : Nat} (v : Byte) (hm : m.wf = true) (ha : a < 256) :
    (m.set a v).wf = true :=
  Memory.set_keeps_wfFrom v hm (Nat.zero_le a) ha

/-- A write leaves every other address alone, in canonical form or not. -/
@[simp] theorem Memory.get_set_other {a a' : Nat} (h : a' ≠ a) (m : Memory) (v : Byte) :
    (m.set a v).get a' = m.get a' := by
  induction m with
  | nil =>
    unfold Memory.set
    split
    · rfl
    · simp [Memory.get, h]
  | cons c m ih =>
    obtain ⟨b, w⟩ := c
    unfold Memory.set
    split_ifs with hab hv heq hv
    · rfl
    · simp [Memory.get, h]
    · subst heq; simp [Memory.get, h]
    · subst heq; simp [Memory.get, h]
    · simp only [Memory.get, ih]

theorem Memory.get_set_same_from {lo : Nat} {m : Memory} (a : Nat) (v : Byte) (hm : Memory.wfFrom lo m = true) :
    (m.set a v).get a = v := by
  induction m generalizing lo with
  | nil =>
    unfold Memory.set
    split
    · rename_i h; simp [Memory.get, h]
    · simp [Memory.get]
  | cons c m ih =>
    obtain ⟨b, w⟩ := c
    have hm' := Memory.wfFrom_cons.1 hm
    unfold Memory.set
    split_ifs with hab hv heq hv
    · rw [hv]
      exact Memory.get_of_lt (Memory.wfFrom_cons.2 ⟨le_refl b, hm'.2⟩) hab
    · simp [Memory.get]
    · subst heq
      rw [hv]
      exact Memory.get_of_lt hm'.2.2.2 (Nat.lt_succ_self a)
    · simp [Memory.get]
    · simp only [Memory.get, if_neg heq]
      exact ih hm'.2.2.2

/-- A canonical memory gives back what was written. -/
theorem Memory.get_set_same {m : Memory} (hm : m.wf = true) (a : Nat) (v : Byte) : (m.set a v).get a = v :=
  Memory.get_set_same_from a v hm

theorem Memory.ext_from {lo : Nat} {m n : Memory} (hm : Memory.wfFrom lo m = true) (hn : Memory.wfFrom lo n = true)
    (h : ∀ a, m.get a = n.get a) : m = n := by
  induction m generalizing lo n with
  | nil =>
    cases n with
    | nil => rfl
    | cons d n =>
      obtain ⟨b, w⟩ := d
      have hb := h b
      have hw := (Memory.wfFrom_cons.1 hn).2.2.1
      simp only [Memory.get, if_true] at hb
      exact absurd hb.symm hw
  | cons c m ih =>
    obtain ⟨a, v⟩ := c
    obtain ⟨-, -, hv, hm4⟩ := Memory.wfFrom_cons.1 hm
    cases n with
    | nil =>
      have ha := h a
      simp only [Memory.get, if_true] at ha
      exact absurd ha hv
    | cons d n =>
      obtain ⟨b, w⟩ := d
      obtain ⟨-, -, hw, hn4⟩ := Memory.wfFrom_cons.1 hn
      have ha := h a
      have hb := h b
      simp only [Memory.get, if_true] at ha hb
      have hab : a = b := by
        rcases Nat.lt_trichotomy a b with hlt | heq | hlt
        · rw [if_neg (by omega), Memory.get_of_lt hn4 (by omega)] at ha
          exact absurd ha hv
        · exact heq
        · rw [if_neg (by omega), Memory.get_of_lt hm4 (by omega)] at hb
          exact absurd hb.symm hw
      subst hab
      simp only [if_true] at ha
      subst ha
      have : m = n := by
        refine ih hm4 hn4 fun x => ?_
        have hx := h x
        simp only [Memory.get] at hx
        by_cases hax : x = a
        · rw [hax, Memory.get_of_lt hm4 (Nat.lt_succ_self a), Memory.get_of_lt hn4 (Nat.lt_succ_self a)]
        · simpa [hax] using hx
      rw [this]

/-- Two canonical memories that read alike are the same list. -/
theorem Memory.ext_of_get {m n : Memory} (hm : m.wf = true) (hn : n.wf = true) (h : ∀ a, m.get a = n.get a) :
    m = n :=
  Memory.ext_from hm hn h

/-! ### the ports -/

theorem memRead_of_lt {a : Nat} (h : a < 256) (s : State) : memRead a s = some (s.mem.get a) := if_pos h

theorem memRead_of_ge {a : Nat} (h : 256 ≤ a) (s : State) : memRead a s = none := if_neg (Nat.not_lt.2 h)

theorem memRead_eq_none {a : Nat} {s : State} : memRead a s = none ↔ 256 ≤ a := by
  unfold memRead
  split_ifs with h
  · exact ⟨fun hn => (by cases hn), fun hge => absurd h (Nat.not_lt.2 hge)⟩
  · exact ⟨fun _ => Nat.not_lt.1 h, fun _ => rfl⟩

theorem memRead_some_lt {a : Nat} {s : State} {v : Byte} (h : memRead a s = some v) : a < 256 := by
  by_contra hc
  rw [memRead_of_ge (by omega)] at h
  cases h

theorem memRead_toNat (a : Byte) (s : State) : memRead a.toNat s = some (portRead a s) :=
  memRead_of_lt a.isLt s

/-- The memory port leaves every other address alone. -/
theorem memRead_portWrite_other {a : Byte} {a' : Nat} (h : a' ≠ a.toNat) (v : Byte) (s : State) :
    memRead a' (portWrite a v s) = memRead a' s := by
  simp [memRead, portWrite, h]

/-- The memory port gives back what was written. -/
theorem memRead_portWrite_same {s : State} (hm : s.mem.wf = true) (a v : Byte) :
    memRead a.toNat (portWrite a v s) = some v := by
  rw [memRead_of_lt a.isLt]
  exact congrArg some (Memory.get_set_same hm a.toNat v)

theorem portWrite_keeps_wf {s : State} (hm : s.mem.wf = true) (a v : Byte) : (portWrite a v s).mem.wf = true :=
  Memory.set_keeps_wf v hm a.isLt

/-- Everything a successful MemWrite does. -/
theorem memWrite_eq_some {a : Nat} {v : Byte} {s t : State} (h : memWrite a v s = some t) :
    a < 256 ∧ t = { s with mem := s.mem.set a v } := by
  unfold memWrite at h
  split at h
  · exact ⟨‹_›, (Option.some.inj h).symm⟩
  · cases h

theorem memWrite_getD (a : Nat) (v : Byte) (s : State) :
    (memWrite a v s).getD s = { s with mem := if a < 256 then s.mem.set a v else s.mem } := by
  unfold memWrite
  split <;> simp_all

/-- Everything the host port's writes do to the fields: only memory changes, and it keeps its form. -/
theorem pokeBytes_fields (a : Nat) (vs : List Byte) (s : State) :
    ∃ m : Memory, pokeBytes a vs s = { s with mem := m } ∧ (s.mem.wf = true → m.wf = true) := by
  induction vs generalizing a s with
  | nil => exact ⟨s.mem, rfl, id⟩
  | cons v vs ih =>
    obtain ⟨m, hm, hwf⟩ := ih (a + 1) ((memWrite a v s).getD s)
    refine ⟨m, ?_, fun h => hwf ?_⟩
    · rw [pokeBytes, hm, memWrite_getD]
    · rw [memWrite_getD]
      show Memory.wf (if a < 256 then _ else _) = true
      split
      · exact Memory.set_keeps_wf v h ‹_›
      · exact h

/-- Every memory operation keeps the canonical form. -/
theorem pokeBytes_keeps_wf {a : Nat} {vs : List Byte} {s : State} (h : s.mem.wf = true) :
    (pokeBytes a vs s).mem.wf = true := by
  obtain ⟨m, hm, hwf⟩ := pokeBytes_fields a vs s
  rw [hm]
  exact hwf h

/-- The host port's writes leave every address below their first one alone. -/
theorem memRead_pokeBytes_below {a a' : Nat} (h : a' < a) (vs : List Byte) (s : State) :
    memRead a' (pokeBytes a vs s) = memRead a' s := by
  induction vs generalizing a s with
  | nil => rfl
  | cons v vs ih =>
    rw [pokeBytes, ih (by omega), memWrite_getD]
    unfold memRead
    split
    · show some (Memory.get (if a < 256 then _ else _) a') = _
      split
      · rw [Memory.get_set_other (by omega)]
      · rfl
    · rfl

theorem memWrite_keeps_wf {a : Nat} {v : Byte} {s t : State} (h : memWrite a v s = some t) (hm : s.mem.wf = true) :
    t.mem.wf = true := by
  obtain ⟨ha, rfl⟩ := memWrite_eq_some h
  exact Memory.set_keeps_wf v hm ha

theorem reset_mem_wf : State.reset.mem.wf = true := rfl

theorem resetWith_mem_wf (f : Fin 7 → Byte) : (State.resetWith f).mem.wf = true := rfl

end Sys2Proof.Machine
end

