-- ==== Sys2Proof/Laws/Ops.lean ====
section
/-! SUPPORT. The ALU as arithmetic on bytes, and everything push and pop do: the stack pointer, the other registers,
memory and the fields they leave alone. -/

namespace Sys2Proof.Machine

/-! ### the ALU -/

theorem alu_add (a b : Byte) : alu .add a b = a + b := by
  apply BitVec.eq_of_toNat_eq
  simp [alu]

theorem alu_mul (a b : Byte) : alu .mul a b = a * b := by
  apply BitVec.eq_of_toNat_eq
  simp [alu]

theorem alu_inc (a b : Byte) : alu .inc a b = a + 1 := by
  apply BitVec.eq_of_toNat_eq
  simp [alu]

theorem alu_dec (a b : Byte) : alu .dec a b = a - 1 := by
  have h : alu .dec a b = BitVec.ofInt 8 ((a.toNat : Int) - 1) := rfl
  rw [h, BitVec.sub_eq_add_neg, sub_eq_add_neg, BitVec.ofInt_add]
  simp

/-- The comparison answers one of the three flags, by unsigned order. -/
theorem compareFlags_cases (a b : Byte) :
    (a.toNat = b.toNat ∧ compareFlags a b = flagE) ∨ (b.toNat < a.toNat ∧ compareFlags a b = flagG) ∨
      (a.toNat < b.toNat ∧ compareFlags a b = flagL) := by
  unfold compareFlags
  split_ifs with h1 h2
  · exact .inl ⟨h1, rfl⟩
  · exact .inr (.inl ⟨h2, rfl⟩)
  · exact .inr (.inr ⟨by omega, rfl⟩)

/-! ### push -/

theorem push_eq (v : Byte) (s : State) :
    push v s = portWrite (sp s - 1) v (setReg Config.spIndex (sp s - 1) s) := by
  simp only [push, alu_dec]

@[simp] theorem push_pc (v : Byte) (s : State) : (push v s).pc = s.pc := rfl
@[simp] theorem push_fl (v : Byte) (s : State) : (push v s).fl = s.fl := rfl
@[simp] theorem push_run (v : Byte) (s : State) : (push v s).run = s.run := rfl
@[simp] theorem push_out (v : Byte) (s : State) : (push v s).out = s.out := rfl
@[simp] theorem push_mode (v : Byte) (s : State) : (push v s).mode = s.mode := rfl

theorem push_mem (v : Byte) (s : State) : (push v s).mem = s.mem.set (sp s - 1).toNat v := by
  rw [push_eq]
  rfl

theorem reg_push (r : Reg) (v : Byte) (s : State) :
    reg r (push v s) = if Config.spIndex = r then sp s - 1 else reg r s := by
  rw [push_eq, reg_portWrite, reg_setReg]

@[simp] theorem sp_push (v : Byte) (s : State) : sp (push v s) = sp s - 1 := by
  simp [sp, reg_push]

theorem memRead_push_other {a : Nat} {s : State} (h : a ≠ (sp s - 1).toNat) (v : Byte) :
    memRead a (push v s) = memRead a s := by
  rw [push_eq, memRead_portWrite_other h, memRead_setReg]

theorem memRead_push_same {s : State} (hm : s.mem.wf = true) (v : Byte) :
    memRead (sp s - 1).toNat (push v s) = some v := by
  rw [push_eq]
  exact memRead_portWrite_same (s := setReg Config.spIndex (sp s - 1) s) hm _ v

theorem push_keeps_wf {s : State} (hm : s.mem.wf = true) (v : Byte) : (push v s).mem.wf = true := by
  rw [push_mem]
  exact Memory.set_keeps_wf v hm (sp s - 1).isLt

/-! ### pop -/

theorem pop_eq (s : State) : pop s = (portRead (sp s) s, setReg Config.spIndex (sp s + 1) s) := by
  simp only [pop, alu_inc]

@[simp] theorem pop_value (s : State) : (pop s).1 = portRead (sp s) s := rfl
@[simp] theorem pop_pc (s : State) : (pop s).2.pc = s.pc := rfl
@[simp] theorem pop_fl (s : State) : (pop s).2.fl = s.fl := rfl
@[simp] theorem pop_run (s : State) : (pop s).2.run = s.run := rfl
@[simp] theorem pop_mem (s : State) : (pop s).2.mem = s.mem := rfl
@[simp] theorem pop_out (s : State) : (pop s).2.out = s.out := rfl
@[simp] theorem pop_mode (s : State) : (pop s).2.mode = s.mode := rfl
@[simp] theorem memRead_pop (a : Nat) (s : State) : memRead a (pop s).2 = memRead a s := rfl

theorem reg_pop (r : Reg) (s : State) :
    reg r (pop s).2 = if Config.spIndex = r then sp s + 1 else reg r s := by
  rw [pop_eq]
  exact reg_setReg _ _ _ _

@[simp] theorem sp_pop (s : State) : sp (pop s).2 = sp s + 1 := by
  simp [sp, reg_pop]

end Sys2Proof.Machine
end

