-- ==== Sys2Proof/Laws/Exec.lean ====
section
/-! SUPPORT. Everything a meaning can do: for each instruction the cases of its next state, the register check of an
operand, and the fields that a raised fault leaves alone. -/

namespace Sys2Proof.Machine

/-- The state in which a register operand byte of 8 or more is reported. -/
abbrev badReg (op : Op) (b : Byte) (s : State) : State :=
  raise .invalidRegister (some (opcodeByte op)) (.index b) s

/-- A register operand byte below 8 goes on with the register it names. -/
theorem withReg_of_lt {op : Op} {b : Byte} (h : b.toNat < 8) (s : State) (k : Reg → Result) :
    withReg op b s k = k ⟨b.toNat, h⟩ := dif_pos h

/-- A register operand byte of 8 or more raises InvalidRegister. -/
theorem withReg_of_ge {op : Op} {b : Byte} (h : 8 ≤ b.toNat) (s : State) (k : Reg → Result) :
    withReg op b s k = .next (badReg op b s) := dif_neg (Nat.not_lt.2 h)

theorem withTwoRegs_of_lt {op : Op} {a b : Byte} (ha : a.toNat < 8) (hb : b.toNat < 8) (s : State)
    (k : Reg → Reg → Result) : withTwoRegs op a b s k = k ⟨a.toNat, ha⟩ ⟨b.toNat, hb⟩ := by
  rw [withTwoRegs, withReg_of_lt ha, withReg_of_lt hb]

/-- Everything a checked register operand can lead to. -/
theorem withReg_cases {op : Op} {b : Byte} {s t : State} {k : Reg → Result} (h : withReg op b s k = .next t) :
    (∃ hb : b.toNat < 8, k ⟨b.toNat, hb⟩ = .next t) ∨ (8 ≤ b.toNat ∧ t = badReg op b s) := by
  by_cases hb : b.toNat < 8
  · rw [withReg_of_lt hb] at h
    exact .inl ⟨hb, h⟩
  · rw [withReg_of_ge (Nat.not_lt.1 hb)] at h
    exact .inr ⟨Nat.not_lt.1 hb, (Host.Outcome.next.inj h).symm⟩

/-- Everything two checked register operands can lead to, byte 1 reported first. -/
theorem withTwoRegs_cases {op : Op} {a b : Byte} {s t : State} {k : Reg → Reg → Result}
    (h : withTwoRegs op a b s k = .next t) :
    (∃ (ha : a.toNat < 8) (hb : b.toNat < 8), k ⟨a.toNat, ha⟩ ⟨b.toNat, hb⟩ = .next t) ∨
      (8 ≤ a.toNat ∧ t = badReg op a s) ∨ (a.toNat < 8 ∧ 8 ≤ b.toNat ∧ t = badReg op b s) := by
  rcases withReg_cases h with ⟨ha, h⟩ | h
  · rcases withReg_cases h with ⟨hb, h⟩ | ⟨hb, h⟩
    · exact .inl ⟨ha, hb, h⟩
    · exact .inr (.inr ⟨ha, hb, h⟩)
  · exact .inr (.inl h)

theorem execLdi_cases {ra imm : Byte} {s t : State} (h : execLdi ra imm s = .next t) :
    (∃ ha : ra.toNat < 8, t = advance .ldi (setReg ⟨ra.toNat, ha⟩ imm s)) ∨
      (8 ≤ ra.toNat ∧ t = badReg .ldi ra s) := by
  rcases withReg_cases h with ⟨ha, h⟩ | h
  · exact .inl ⟨ha, (Host.Outcome.next.inj h).symm⟩
  · exact .inr h

theorem execPrn_cases {ra : Byte} {s t : State} (h : execPrn ra s = .next t) :
    (∃ ha : ra.toNat < 8, t = advance .prn (emit (reg ⟨ra.toNat, ha⟩ s) s)) ∨
      (8 ≤ ra.toNat ∧ t = badReg .prn ra s) := by
  rcases withReg_cases h with ⟨ha, h⟩ | h
  · exact .inl ⟨ha, (Host.Outcome.next.inj h).symm⟩
  · exact .inr h

theorem execMul_cases {ra rb : Byte} {s t : State} (h : execMul ra rb s = .next t) :
    (∃ (ha : ra.toNat < 8) (hb : rb.toNat < 8),
        t = advance .mul (setReg ⟨ra.toNat, ha⟩ (reg ⟨ra.toNat, ha⟩ s * reg ⟨rb.toNat, hb⟩ s) s)) ∨
      (8 ≤ ra.toNat ∧ t = badReg .mul ra s) ∨ (ra.toNat < 8 ∧ 8 ≤ rb.toNat ∧ t = badReg .mul rb s) := by
  rcases withTwoRegs_cases h with ⟨ha, hb, h⟩ | h
  · rw [alu_mul] at h
    exact .inl ⟨ha, hb, (Host.Outcome.next.inj h).symm⟩
  · exact .inr h

theorem execAdd_cases {ra rb : Byte} {s t : State} (h : execAdd ra rb s = .next t) :
    (∃ (ha : ra.toNat < 8) (hb : rb.toNat < 8),
        t = advance .add (setReg ⟨ra.toNat, ha⟩ (reg ⟨ra.toNat, ha⟩ s + reg ⟨rb.toNat, hb⟩ s) s)) ∨
      (8 ≤ ra.toNat ∧ t = badReg .add ra s) ∨ (ra.toNat < 8 ∧ 8 ≤ rb.toNat ∧ t = badReg .add rb s) := by
  rcases withTwoRegs_cases h with ⟨ha, hb, h⟩ | h
  · rw [alu_add] at h
    exact .inl ⟨ha, hb, (Host.Outcome.next.inj h).symm⟩
  · exact .inr h

theorem execCmp_cases {ra rb : Byte} {s t : State} (h : execCmp ra rb s = .next t) :
    (∃ (ha : ra.toNat < 8) (hb : rb.toNat < 8),
        t = advance .cmp (setFlags (compareFlags (reg ⟨ra.toNat, ha⟩ s) (reg ⟨rb.toNat, hb⟩ s)) s)) ∨
      (8 ≤ ra.toNat ∧ t = badReg .cmp ra s) ∨ (ra.toNat < 8 ∧ 8 ≤ rb.toNat ∧ t = badReg .cmp rb s) := by
  rcases withTwoRegs_cases h with ⟨ha, hb, h⟩ | h
  · exact .inl ⟨ha, hb, (Host.Outcome.next.inj h).symm⟩
  · exact .inr h

theorem execPush_cases {ra : Byte} {s t : State} (h : execPush ra s = .next t) :
    (∃ ha : ra.toNat < 8, t = advance .push (push (reg ⟨ra.toNat, ha⟩ s) s)) ∨
      (8 ≤ ra.toNat ∧ t = badReg .push ra s) := by
  rcases withReg_cases h with ⟨ha, h⟩ | h
  · exact .inl ⟨ha, (Host.Outcome.next.inj h).symm⟩
  · exact .inr h

theorem execPop_cases {ra : Byte} {s t : State} (h : execPop ra s = .next t) :
    (∃ ha : ra.toNat < 8, t = advance .pop (setReg ⟨ra.toNat, ha⟩ (portRead (sp s) s) (pop s).2)) ∨
      (8 ≤ ra.toNat ∧ t = badReg .pop ra s) := by
  rcases withReg_cases h with ⟨ha, h⟩ | h
  · exact .inl ⟨ha, (Host.Outcome.next.inj h).symm⟩
  · exact .inr h

/-- The state after CALL's push, in which its target register is read. -/
abbrev callPushed (s : State) : State := push (BitVec.ofNat 8 (s.pc.toNat + 2)) s

theorem execCall_cases {ra : Byte} {s t : State} (h : execCall ra s = .next t) :
    (∃ ha : ra.toNat < 8, s.pc.toNat + 2 < 256 ∧
        t = mux (.jump (reg ⟨ra.toNat, ha⟩ (callPushed s))) (callPushed s)) ∨
      (8 ≤ ra.toNat ∧ t = badReg .call ra s) ∨
      (ra.toNat < 8 ∧ 256 ≤ s.pc.toNat + 2 ∧
        t = raise .outOfBounds (some (opcodeByte .call)) (.addr (s.pc.toNat + 2)) s) := by
  rcases withReg_cases h with ⟨ha, h⟩ | h
  · split at h
    · exact .inl ⟨ha, ‹_›, (Host.Outcome.next.inj h).symm⟩
    · exact .inr (.inr ⟨ha, Nat.not_lt.1 ‹_›, (Host.Outcome.next.inj h).symm⟩)
  · exact .inr (.inl h)

theorem execRet_cases {s t : State} (h : execRet s = .next t) : t = mux (.jump (portRead (sp s) s)) (pop s).2 :=
  (Host.Outcome.next.inj h).symm

theorem execHlt_cases {s t : State} (h : execHlt s = .next t) : t = mux .stop s :=
  (Host.Outcome.next.inj h).symm

/-! ### everything exec can do -/

/-- The next states of an instruction: its effect on legal operands, or the fault it raises. -/
inductive Effect (s : State) : Instr → State → Prop where
  | ldi {ra imm : Byte} (ha : ra.toNat < 8) : Effect s (.ldi ra imm) (advance .ldi (setReg ⟨ra.toNat, ha⟩ imm s))
  | prn {ra : Byte} (ha : ra.toNat < 8) : Effect s (.prn ra) (advance .prn (emit (reg ⟨ra.toNat, ha⟩ s) s))
  | mul {ra rb : Byte} (ha : ra.toNat < 8) (hb : rb.toNat < 8) :
      Effect s (.mul ra rb)
        (advance .mul (setReg ⟨ra.toNat, ha⟩ (reg ⟨ra.toNat, ha⟩ s * reg ⟨rb.toNat, hb⟩ s) s))
  | add {ra rb : Byte} (ha : ra.toNat < 8) (hb : rb.toNat < 8) :
      Effect s (.add ra rb)
        (advance .add (setReg ⟨ra.toNat, ha⟩ (reg ⟨ra.toNat, ha⟩ s + reg ⟨rb.toNat, hb⟩ s) s))
  | cmp {ra rb : Byte} (ha : ra.toNat < 8) (hb : rb.toNat < 8) :
      Effect s (.cmp ra rb)
        (advance .cmp (setFlags (compareFlags (reg ⟨ra.toNat, ha⟩ s) (reg ⟨rb.toNat, hb⟩ s)) s))
  | push {ra : Byte} (ha : ra.toNat < 8) : Effect s (.push ra) (advance .push (push (reg ⟨ra.toNat, ha⟩ s) s))
  | pop {ra : Byte} (ha : ra.toNat < 8) :
      Effect s (.pop ra) (advance .pop (setReg ⟨ra.toNat, ha⟩ (portRead (sp s) s) (pop s).2))
  | call {ra : Byte} (ha : ra.toNat < 8) (hp : s.pc.toNat + 2 < 256) :
      Effect s (.call ra) (mux (.jump (reg ⟨ra.toNat, ha⟩ (callPushed s))) (callPushed s))
  | ret : Effect s .ret (mux (.jump (portRead (sp s) s)) (pop s).2)
  | hlt : Effect s .hlt (mux .stop s)
  | badReg {i : Instr} {b : Byte} (hb : 8 ≤ b.toNat) : Effect s i (badReg i.op b s)
  | badCall {ra : Byte} (hp : 256 ≤ s.pc.toNat + 2) :
      Effect s (.call ra) (raise .outOfBounds (some (opcodeByte .call)) (.addr (s.pc.toNat + 2)) s)

/-- Everything an instruction can do when it answers a next state. -/
theorem exec_effect {i : Instr} {s t : State} (h : exec i s = .next t) : Effect s i t := by
  cases i with
  | ldi ra imm =>
    rcases execLdi_cases h with ⟨ha, rfl⟩ | ⟨hb, rfl⟩
    exacts [.ldi ha, .badReg hb]
  | prn ra =>
    rcases execPrn_cases h with ⟨ha, rfl⟩ | ⟨hb, rfl⟩
    exacts [.prn ha, .badReg hb]
  | mul ra rb =>
    rcases execMul_cases h with ⟨ha, hb, rfl⟩ | ⟨hb, rfl⟩ | ⟨-, hb, rfl⟩
    exacts [.mul ha hb, .badReg hb, .badReg hb]
  | add ra rb =>
    rcases execAdd_cases h with ⟨ha, hb, rfl⟩ | ⟨hb, rfl⟩ | ⟨-, hb, rfl⟩
    exacts [.add ha hb, .badReg hb, .badReg hb]
  | cmp ra rb =>
    rcases execCmp_cases h with ⟨ha, hb, rfl⟩ | ⟨hb, rfl⟩ | ⟨-, hb, rfl⟩
    exacts [.cmp ha hb, .badReg hb, .badReg hb]
  | push ra =>
    rcases execPush_cases h with ⟨ha, rfl⟩ | ⟨hb, rfl⟩
    exacts [.push ha, .badReg hb]
  | pop ra =>
    rcases execPop_cases h with ⟨ha, rfl⟩ | ⟨hb, rfl⟩
    exacts [.pop ha, .badReg hb]
  | call ra =>
    rcases execCall_cases h with ⟨ha, hp, rfl⟩ | ⟨hb, rfl⟩ | ⟨-, hp, rfl⟩
    exacts [.call ha hp, .badReg hb, .badCall hp]
  | ret => rw [execRet_cases h]; exact .ret
  | hlt => rw [execHlt_cases h]; exact .hlt

/-! ### each instruction on legal operands -/

theorem exec_ldi {ra : Byte} (h : ra.toNat < 8) (imm : Byte) (s : State) :
    exec (.ldi ra imm) s = .next (advance .ldi (setReg ⟨ra.toNat, h⟩ imm s)) := by
  rw [exec, execLdi, withReg_of_lt h]

theorem exec_prn {ra : Byte} (h : ra.toNat < 8) (s : State) :
    exec (.prn ra) s = .next (advance .prn (emit (reg ⟨ra.toNat, h⟩ s) s)) := by
  rw [exec, execPrn, withReg_of_lt h]

theorem exec_mul {ra rb : Byte} (ha : ra.toNat < 8) (hb : rb.toNat < 8) (s : State) :
    exec (.mul ra rb) s =
      .next (advance .mul (setReg ⟨ra.toNat, ha⟩ (reg ⟨ra.toNat, ha⟩ s * reg ⟨rb.toNat, hb⟩ s) s)) := by
  rw [exec, execMul, withTwoRegs_of_lt ha hb, alu_mul]

theorem exec_add {ra rb : Byte} (ha : ra.toNat < 8) (hb : rb.toNat < 8) (s : State) :
    exec (.add ra rb) s =
      .next (advance .add (setReg ⟨ra.toNat, ha⟩ (reg ⟨ra.toNat, ha⟩ s + reg ⟨rb.toNat, hb⟩ s) s)) := by
  rw [exec, execAdd, withTwoRegs_of_lt ha hb, alu_add]

theorem exec_cmp {ra rb : Byte} (ha : ra.toNat < 8) (hb : rb.toNat < 8) (s : State) :
    exec (.cmp ra rb) s =
      .next (advance .cmp (setFlags (compareFlags (reg ⟨ra.toNat, ha⟩ s) (reg ⟨rb.toNat, hb⟩ s)) s)) := by
  rw [exec, execCmp, withTwoRegs_of_lt ha hb, alu]

theorem exec_push {ra : Byte} (h : ra.toNat < 8) (s : State) :
    exec (.push ra) s = .next (advance .push (push (reg ⟨ra.toNat, h⟩ s) s)) := by
  rw [exec, execPush, withReg_of_lt h]

theorem exec_pop {ra : Byte} (h : ra.toNat < 8) (s : State) :
    exec (.pop ra) s = .next (advance .pop (setReg ⟨ra.toNat, h⟩ (portRead (sp s) s) (pop s).2)) := by
  rw [exec, execPop, withReg_of_lt h, pop_value]

theorem exec_call {ra : Byte} (h : ra.toNat < 8) {s : State} (hp : s.pc.toNat + 2 < 256) :
    exec (.call ra) s = .next (mux (.jump (reg ⟨ra.toNat, h⟩ (callPushed s))) (callPushed s)) := by
  rw [exec, execCall, withReg_of_lt h, if_pos hp]

theorem exec_ret (s : State) : exec .ret s = .next (mux (.jump (portRead (sp s) s)) (pop s).2) := rfl

theorem exec_hlt (s : State) : exec .hlt s = .next (mux .stop s) := rfl

end Sys2Proof.Machine
end

