-- ==== Sys2Proof/Laws/PerInstr.lean ====
section
/-! SUPPORT. For every instruction: its encoding has the width that its opcode byte's bits 7:6 give (30_encoding.md
R54), bit 5 marks the ALU instructions and bit 4 the ones that set pc (30_encoding.md R53). -/

namespace Sys2Proof.Laws.OpcodeFields

/-- The opcode byte's fields say what the instruction is (30_encoding.md R53, R54). -/
def Statement (i : Instr) : Prop :=
  (encode i).length = 1 + ((opcodeMap.byteOf i.op).extractLsb 7 6).toNat ∧
    ((opcodeMap.byteOf i.op).getLsbD 5 = true ↔ i.op = .mul ∨ i.op = .add ∨ i.op = .cmp) ∧
    ((opcodeMap.byteOf i.op).getLsbD 4 = true ↔ i.op = .call ∨ i.op = .ret)

/-- The same of an operation, checked one by one. -/
theorem of_op (op : Op) :
    op.width = 1 + ((opcodeMap.byteOf op).extractLsb 7 6).toNat ∧
      ((opcodeMap.byteOf op).getLsbD 5 = true ↔ op = .mul ∨ op = .add ∨ op = .cmp) ∧
      ((opcodeMap.byteOf op).getLsbD 4 = true ↔ op = .call ∨ op = .ret) := by
  cases op <;> decide

theorem of_instr (i : Instr) : Statement i :=
  ⟨(OpcodeMap.length_encode opcodeMap i).trans (of_op i.op).1, (of_op i.op).2⟩

theorem ldi (ra imm : Byte) : Statement (.ldi ra imm) := of_instr _
theorem prn (ra : Byte) : Statement (.prn ra) := of_instr _
theorem mul (ra rb : Byte) : Statement (.mul ra rb) := of_instr _
theorem add (ra rb : Byte) : Statement (.add ra rb) := of_instr _
theorem cmp (ra rb : Byte) : Statement (.cmp ra rb) := of_instr _
theorem push (ra : Byte) : Statement (.push ra) := of_instr _
theorem pop (ra : Byte) : Statement (.pop ra) := of_instr _
theorem call (ra : Byte) : Statement (.call ra) := of_instr _
theorem ret : Statement .ret := of_instr _
theorem hlt : Statement .hlt := of_instr _

end Sys2Proof.Laws.OpcodeFields
end

