-- ==== Sys2Proof/Laws/Step.lean ====
section
/-! SUPPORT. Everything a step can do: the fetch, the cases of a step's next state, and what the host's aid places. -/

namespace Sys2Proof.Machine

/-- A fetch inside memory delivers the byte at pc and the two reads after it. -/
theorem fetch_of_lt {s : State} (h : s.pc.toNat < 256) :
    fetch s = some ⟨s.mem.get s.pc.toNat, memRead (s.pc.toNat + 1) s, memRead (s.pc.toNat + 2) s⟩ := by
  unfold fetch
  rw [memRead_of_lt h]

/-- A fetch from 256 on delivers nothing. -/
theorem fetch_of_ge {s : State} (h : 256 ≤ s.pc.toNat) : fetch s = none := by
  unfold fetch
  rw [memRead_of_ge h]

/-- Everything a successful fetch delivers. -/
theorem fetch_some {s : State} {f : Fetched} (h : fetch s = some f) :
    s.pc.toNat < 256 ∧ memRead s.pc.toNat s = some f.b0 ∧ f.b1 = memRead (s.pc.toNat + 1) s ∧
      f.b2 = memRead (s.pc.toNat + 2) s := by
  unfold fetch at h
  split at h
  · cases h
  · rename_i b0 hb
    obtain rfl := Option.some.inj h
    exact ⟨memRead_some_lt hb, hb, rfl, rfl⟩

theorem step_of_running {s : State} (h : s.run = .running) : step s = cycle s := by
  simp only [step, stepFrom, h]

/-- Everything a step that answers a next state can have done. -/
theorem step_cases {s t : State} (h : step s = .next t) :
    s.run = .running ∧
      ((256 ≤ s.pc.toNat ∧ t = raise .outOfBounds none (.addr s.pc.toNat) s) ∨
        ∃ f, fetch s = some f ∧
          ((∃ e, decode f = .error e ∧ t = raiseDecode e f.b0 s) ∨ ∃ i, decode f = .ok i ∧ exec i s = .next t)) := by
  cases hrun : s.run with
  | halted => simp only [step, stepFrom, hrun] at h; cases h
  | error r => simp only [step, stepFrom, hrun] at h; cases h
  | running =>
    rw [step_of_running hrun, cycle] at h
    refine ⟨rfl, ?_⟩
    split at h
    · rename_i hf
      refine .inl ⟨?_, (Host.Outcome.next.inj h).symm⟩
      by_contra hc
      rw [fetch_of_lt (Nat.not_le.1 hc)] at hf
      cases hf
    · rename_i f hf
      refine .inr ⟨f, hf, ?_⟩
      split at h
      · rename_i e he
        exact .inl ⟨e, he, (Host.Outcome.next.inj h).symm⟩
      · rename_i i hi
        exact .inr ⟨i, hi, h⟩

/-- The bytes of a decoded instruction lie inside memory: pc plus its width is at most 256. -/
theorem decoded_fits {s : State} {f : Fetched} {i : Instr} (hf : fetch s = some f) (hi : decode f = .ok i) :
    s.pc.toNat + i.op.width ≤ 256 := by
  obtain ⟨hpc, -, h1, h2⟩ := fetch_some hf
  obtain ⟨-, rest, hrest⟩ := OpcodeMap.decode_ok hi
  have key : ∀ k v, memRead (s.pc.toNat + k) s = some v → s.pc.toNat + k < 256 := fun k v h => memRead_some_lt h
  cases i <;> simp only [Instr.operands, List.map, List.cons_append, List.cons.injEq, List.nil_append] at hrest <;>
    simp only [Instr.op, Op.width, Op.arity]
  case ldi | mul | add | cmp => have := key 2 _ (h2 ▸ hrest.2.1); omega
  case prn | push | pop | call => have := key 1 _ (h1 ▸ hrest.1); omega
  case ret | hlt => omega

/-- The host's aid changes memory and the run state only, and leaves a Running state. -/
theorem withFetchWord_fields (s : State) (nbits w : Nat) :
    ∃ m : Memory, s.withFetchWord nbits w = { s with run := .running, mem := m } ∧
      (s.mem.wf = true → m.wf = true) := by
  obtain ⟨m, hm, hwf⟩ := pokeBytes_fields s.pc.toNat (tableBytes nbits w) { s with run := .running }
  exact ⟨m, hm, hwf⟩

end Sys2Proof.Machine
end

