-- ==== Sys2Proof/Tests/Slice0.lean ====
section
/-! SUPPORT. Tests of one step each, with the expected results of spec/95_test_vectors.md (V<n>, L<n>, S<n>), the words
of 30_encoding.md R57 written out, the checks of WellFormed, and for every statement with hypotheses a state and
operands that meet them. -/

namespace Sys2Proof.Tests

open Sys2Proof Sys2Proof.Machine

/-- A Running state with pc, R0, R1 and sp as given, bytes at pc, and the rest as after reset. -/
def st (pc : Nat) (r0 r1 stack : Byte) (bytes : List Byte) : State :=
  placeAtPc bytes (setReg 7 stack (setReg 1 r1 (setReg 0 r0 { State.reset with pc := BitVec.ofNat 9 pc })))

/-- One step answers a next state that passes the check. -/
def after (s : State) (p : State → Bool) : Bool :=
  match step s with
  | .next t => p t
  | .fault _ => false
  | .refused _ => false

/-- The step raises this fault and leaves the rest of the state as it was. -/
def faults (s : State) (k : FaultKind) (pc : PcWord) (o : Option Byte) (d : FaultDetail) : Bool :=
  after s fun t => decide (t = { s with run := .error ⟨k, pc, o, d⟩ })

/-! ### WellFormed: an ill-formed term for each check -/

theorem test_wellFormed_ldi : (Instr.ldi 8 0).wellFormed = false ∧ (Instr.ldi 7 255).wellFormed = true := by decide
theorem test_wellFormed_prn : (Instr.prn 8).wellFormed = false := by decide
theorem test_wellFormed_mul : (Instr.mul 8 0).wellFormed = false ∧ (Instr.mul 0 8).wellFormed = false := by decide
theorem test_wellFormed_add : (Instr.add 9 0).wellFormed = false ∧ (Instr.add 0 255).wellFormed = false := by decide
theorem test_wellFormed_cmp : (Instr.cmp 8 7).wellFormed = false ∧ (Instr.cmp 7 8).wellFormed = false := by decide
theorem test_wellFormed_push : (Instr.push 8).wellFormed = false := by decide
theorem test_wellFormed_pop : (Instr.pop 16).wellFormed = false := by decide
theorem test_wellFormed_call : (Instr.call 128).wellFormed = false := by decide

/-! ### Decoding: each word written out from 30_encoding.md R52, R57 -/

theorem test_decode_ldi : decode ⟨0b10000010, some 3, some 255⟩ = .ok (.ldi 3 255) := by decide
theorem test_decode_prn : decode ⟨0b01000111, some 7, none⟩ = .ok (.prn 7) := by decide
theorem test_decode_mul : decode ⟨0b10100010, some 0, some 1⟩ = .ok (.mul 0 1) := by decide
theorem test_decode_add : decode ⟨0b10100000, some 1, some 2⟩ = .ok (.add 1 2) := by decide
theorem test_decode_cmp : decode ⟨0b10100111, some 4, some 1⟩ = .ok (.cmp 4 1) := by decide
theorem test_decode_push : decode ⟨0b01000101, some 1, none⟩ = .ok (.push 1) := by decide
theorem test_decode_pop : decode ⟨0b01000110, some 2, none⟩ = .ok (.pop 2) := by decide
theorem test_decode_call : decode ⟨0b01010000, some 1, none⟩ = .ok (.call 1) := by decide
theorem test_decode_ret : decode ⟨0b00010001, none, none⟩ = .ok .ret := by decide
theorem test_decode_hlt : decode ⟨0b00000001, none, none⟩ = .ok .hlt := by decide

/-- V44 to V47: illegal bytes, 0x83 and 0xA1 with plausible fields among them. -/
theorem test_decode_illegal :
    [0x00, 0xFF, 0x83, 0xA1].all
      (fun b => decide (decode ⟨b, some 0, some 0⟩ = .error .invalidInstruction)) = true := by decide

/-- 30_encoding.md R67: byte 1 is checked before byte 2. -/
theorem test_decode_missing :
    decode ⟨0xA0, none, none⟩ = .error (.missingByte 1) ∧ decode ⟨0xA0, some 9, none⟩ = .error (.missingByte 2) := by
  decide

theorem test_decodeTableWord_ldi : decodeTableWord 24 0xFF0382 = some (.ldi 3 255) := by decide
theorem test_decodeTableWord_short : decodeTableWord 8 0x0382 = some (.ldi 0 0) := by decide
theorem test_encode_cmp : encode (.cmp 4 1) = [0xA7, 4, 1] := by decide

/-! ### The assembly syntax (30_encoding.md R61), the source's example (S6) -/

theorem test_parse_source_example :
    parseProgram "LDI R0 8; LDI R1 9; MUL R0 R1; PRN R0; HLT" =
      some [.ldi 0 8, .ldi 1 9, .mul 0 1, .prn 0, .hlt] := by decide

theorem test_parse_comma : parseStatement "ADD R0, R1".toList = some (.add 0 1) := by decide
theorem test_parse_refuses : parseStatement "PRN R8".toList = none ∧ parseStatement "LDI R0 256".toList = none := by
  decide

/-! ### One step of each instruction (95_test_vectors.md) -/

theorem test_ldi_V1 : after (st 0 0 0 0xFF [0x82, 0x03, 0xFF]) (fun t => reg 3 t == 255 && t.pc == 3) = true := by
  decide
theorem test_ldi_sp_V3 : after (st 0 0 0 0xFF [0x82, 0x07, 0x10]) (fun t => sp t == 0x10) = true := by decide
theorem test_prn_V7 : after (st 0 0 0 0xFF [0x47, 0x00]) (fun t => t.out == [0] && t.pc == 2) = true := by decide
theorem test_prn_sp_V8 : after (st 0 0 0 0xFF [0x47, 0x07]) (fun t => t.out == [255]) = true := by decide
theorem test_add_V10 :
    after (st 0 200 100 0xFF [0xA0, 0x00, 0x01])
      (fun t => reg 0 t == 44 && reg 1 t == 100 && t.fl == 0 && t.pc == 3) = true := by decide
theorem test_add_sp_V15c : after (st 0 0 0 0x80 [0xA0, 0x07, 0x07]) (fun t => sp t == 0x00) = true := by decide
theorem test_mul_V17 : after (st 0 255 255 0xFF [0xA2, 0x00, 0x01]) (fun t => reg 0 t == 1) = true := by decide
theorem test_mul_same_V19 : after (st 0 20 0 0xFF [0xA2, 0x00, 0x00]) (fun t => reg 0 t == 144) = true := by decide
theorem test_cmp_V23 : after (st 0 0 255 0xFF [0xA7, 0x00, 0x01]) (fun t => t.fl == 0x04) = true := by decide
theorem test_cmp_V20_V21 :
    (after (setFlags 0x02 (st 0 5 5 0xFF [0xA7, 0x00, 0x01])) (fun t => t.fl == 0x01) &&
      after (st 0 6 5 0xFF [0xA7, 0x00, 0x01]) (fun t => t.fl == 0x02)) = true := by decide
theorem test_push_wrap_V27 :
    after (st 4 0 9 0x00 [0x45, 0x01]) (fun t => sp t == 0xFF && memRead 0xFF t == some 9) = true := by decide
theorem test_push_sp_V28 :
    after (st 4 0 0 0x80 [0x45, 0x07]) (fun t => sp t == 0x7F && memRead 0x7F t == some 0x80) = true := by decide
theorem test_pop_V29 :
    after (pokeBytes 0xFE [44] (st 4 0 0 0xFE [0x46, 0x02])) (fun t => reg 2 t == 44 && sp t == 0xFF) = true := by
  decide
theorem test_pop_sp_V31 : after (pokeBytes 0x7F [0x80] (st 4 0 0 0x7F [0x46, 0x07])) (fun t => sp t == 0x80) = true := by
  decide
theorem test_call_V33 :
    after (st 3 0 8 0xFF [0x50, 0x01]) (fun t => memRead 0xFE t == some 5 && sp t == 0xFE && t.pc == 8) = true := by
  decide
theorem test_call_sp_V34 :
    after (st 3 0 0 0x80 [0x50, 0x07]) (fun t => memRead 0x7F t == some 5 && t.pc == 0x7F) = true := by decide
theorem test_ret_V39 :
    after (pokeBytes 0xFE [5] (st 9 0 0 0xFE [0x11])) (fun t => t.pc == 5 && sp t == 0xFF) = true := by decide
theorem test_ret_top_V41 :
    after (pokeBytes 0x7F [8] (st 255 0 0 0x7F [0x11])) (fun t => t.pc == 8 && sp t == 0x80) = true := by decide
theorem test_hlt_V42 :
    after (st 11 0 0 0xFF [0x01, 0xFF, 0xFF]) (fun t => t.run == .halted && t.pc == 11) = true := by decide
theorem test_hlt_top_V43 : after (st 255 0 0 0xFF [0x01]) (fun t => t.run == .halted && t.pc == 255) = true := by
  decide

/-! ### Faults (95_test_vectors.md) -/

theorem test_fault_V4 : faults (st 0 0 0 0xFF [0x82, 0x08, 0x01]) .invalidRegister 0 (some 0x82) (.index 8) = true := by
  decide
theorem test_fault_V5 : faults (st 254 0 0 0xFF [0x82, 0x00]) .outOfBounds 254 (some 0x82) (.addr 256) = true := by
  decide
theorem test_fault_V9b : faults (st 255 0 0 0xFF [0x47]) .outOfBounds 255 (some 0x47) (.addr 256) = true := by decide
theorem test_fault_V15 : faults (st 0 0 0 0xFF [0xA0, 0x09, 0x0A]) .invalidRegister 0 (some 0xA0) (.index 9) = true := by
  decide
theorem test_fault_V15b : faults (st 254 0 0 0xFF [0xA0, 0x09]) .outOfBounds 254 (some 0xA0) (.addr 256) = true := by
  decide
theorem test_fault_V32 : faults (st 0 0 0 0xFF [0x46, 0x08]) .invalidRegister 0 (some 0x46) (.index 8) = true := by
  decide
theorem test_fault_V36 : faults (st 254 0 0 0x80 [0x50, 0x01]) .outOfBounds 254 (some 0x50) (.addr 256) = true := by
  decide
theorem test_fault_V45 : faults (st 3 0 0 0xFF [0xFF]) .invalidInstruction 3 (some 0xFF) .none = true := by decide
theorem test_fault_V48 : faults (st 256 0 0 0xFF []) .outOfBounds 256 none (.addr 256) = true := by decide

/-- P6: with no program loaded, the first step after reset reports byte 0x00 at 0. -/
theorem test_reset_step : faults State.reset .invalidInstruction 0 (some 0x00) .none = true := by decide

/-- The host's aid: the first step after reset runs the word placed. -/
theorem test_withFetchWord : after (State.reset.withFetchWord 24 0x070082) (fun t => t.pc == 3) = true := by decide

/-! ### The host port (L1, L3, S8) -/

theorem test_load_too_large :
    loadProgram (List.replicate 257 1) State.reset = .error .programTooLarge := by
  rw [loadProgram, if_pos (by rw [List.length_replicate]; decide)]

theorem test_load_bytes :
    (match loadProgram [0x82, 0, 8] State.reset with
      | .ok t => memRead 0 t == some 0x82 && memRead 2 t == some 8 && memRead 3 t == some 0
      | .error _ => false) = true := by decide

theorem test_launch_not_a_byte : launch Config.rInit [1, 256] = .error .notAByte := by
  rw [launch, if_neg (by decide)]

/-! ### Hypotheses are met: one witness for each statement that has any -/

theorem witness_ResetLeavesEveryField : ∃ f, State.reset = State.resetWith f := ⟨Config.rInit, rfl⟩

theorem witness_StepKeepsTheStateInvariant :
    ∃ s t, StateInv s ∧ step s = .next t ∧ t.run = .running := by
  refine ⟨st 0 0 0 0xFF [0xA7, 0, 1], _, ⟨by decide, by decide, by decide, fun r h => ?_⟩, rfl, by decide⟩
  exact absurd h (by simp [st, placeAtPc, pokeBytes, memWrite])

theorem witness_MemoryPortContract :
    State.reset.mem.wf = true ∧ (memWrite 255 7 State.reset).isSome = true ∧ (memWrite 256 7 State.reset) = none ∧
      (memRead 255 State.reset).isSome = true ∧ memRead 256 State.reset = none := by decide

theorem witness_stack_statements :
    (st 0 1 2 0x00 []).mem.wf = true ∧ sp (st 0 1 2 0x00 []) = 0x00 ∧ sp (st 0 1 2 0xFF []) = 0xFF := by decide

/-- The operand hypotheses of the result statements at both ends of their range. -/
theorem witness_register_operands : (0 : Byte).toNat < 8 ∧ (7 : Byte).toNat < 8 ∧ (6 : Byte).toNat ≠ 7 := by decide

/-- CALL's hypothesis at its boundary: pc 253, canonical memory. -/
theorem witness_CallPushesReturnAndJumps :
    (st 253 0 0 0x80 [0x50, 0]).pc.toNat + 2 < 256 ∧ (st 253 0 0 0x80 [0x50, 0]).mem.wf = true ∧
      (1 : Byte).toNat < 8 ∧ (7 : Byte).toNat < 8 := by decide

theorem witness_PushThenPopRoundTrip :
    (0 : Byte).toNat < 8 ∧ (7 : Byte).toNat < 8 ∧ (0 : Byte).toNat ≠ 7 ∧ (st 0 5 0 0x00 [0x45, 7]).mem.wf = true := by
  decide

theorem witness_CallThenRetRoundTrip :
    (7 : Byte).toNat < 8 ∧ (st 253 0 0 0x00 [0x50, 7]).pc.toNat + 2 < 256 ∧
      (st 253 0 0 0x00 [0x50, 7]).mem.wf = true := by decide

theorem witness_BadRegisterByteRaisesInvalidRegister :
    (regOperands (.add 0 8)).find? (fun b => 8 ≤ b.toNat) = some 8 ∧
      (regOperands (.ldi 255 0)).find? (fun b => 8 ≤ b.toNat) = some 255 ∧
      (regOperands (.cmp 9 10)).find? (fun b => 8 ≤ b.toNat) = some 9 := by decide

theorem witness_CallWithoutReturnAddressFaults :
    (7 : Byte).toNat < 8 ∧ 256 ≤ (st 254 0 0 0x80 [0x50, 7]).pc.toNat + 2 := by decide

theorem witness_InvalidOpcodeRaisesInvalidInstruction :
    decode ⟨0x01, none, none⟩ = .ok .hlt ∧ (st 255 0 0 0xFF [0xFE]).run = .running ∧
      memRead (st 255 0 0 0xFF [0xFE]).pc.toNat (st 255 0 0 0xFF [0xFE]) = some 0xFE ∧
      opcodeMap.lookup 0xFE = none := by decide

theorem witness_StepRaisesTheFirstFaultInOrder :
    (st 256 0 0 0xFF []).run = .running ∧
      firstFault (st 256 0 0 0xFF []) = some ⟨.outOfBounds, 256, none, .addr 256⟩ ∧
      firstFault (st 254 0 0 0xFF [0x50, 1]) = some ⟨.outOfBounds, 254, some 0x50, .addr 256⟩ ∧
      firstFault (st 253 0 0 0xFF [0x50, 1]) = none ∧ firstFault (st 255 0 0 0xFF [0x11]) = none := by decide

theorem witness_fault_statements :
    ∃ t r, step State.reset = .next t ∧ t.run = .error r := ⟨_, _, rfl, rfl⟩

theorem witness_StepRunsTheDecodedInstruction :
    (st 255 0 0 0xFF [0x11]).run = .running ∧
      memRead (st 255 0 0 0xFF [0x11]).pc.toNat (st 255 0 0 0xFF [0x11]) = some 0x11 ∧
      decode ⟨0x11, memRead ((st 255 0 0 0xFF [0x11]).pc.toNat + 1) (st 255 0 0 0xFF [0x11]),
        memRead ((st 255 0 0 0xFF [0x11]).pc.toNat + 2) (st 255 0 0 0xFF [0x11])⟩ = .ok .ret := by decide

theorem witness_StepRunsTheEncodedInstruction :
    (st 254 0 0 0xFF [0x47, 7]).run = .running ∧ BytesAtPc (encode (.prn 7)) (st 254 0 0 0xFF [0x47, 7]) := by
  refine ⟨by decide, fun k b h => ?_⟩
  match k with
  | 0 => rw [← h]; decide
  | 1 => rw [← h]; decide
  | k + 2 => exact absurd h (by simp [encode, OpcodeMap.encode, Instr.operands])

theorem witness_stopped_blocks :
    (mux .stop State.reset).run = .halted ∧ (mux .stop State.reset).run ≠ .running ∧
      (raise .invalidInstruction (some 0) .none State.reset).run =
        .error ⟨.invalidInstruction, 0, some 0, .none⟩ ∧ State.reset.run = .running := by decide

theorem witness_OnlyHltHalts :
    ∃ t, step (st 255 0 0 0xFF [0x01]) = .next t ∧ t.run = .halted := ⟨_, rfl, rfl⟩

/-- PUSH R0 at 0 with sp 3 stores at 2, the next pc; CALL R7 at 253 jumps to the byte it stored. -/
theorem witness_StoredByteIsSeenByTheNextFetch :
    (st 0 0x01 0 0x03 [0x45, 0]).mem.wf = true ∧
      (st 0 0x01 0 0x03 [0x45, 0]).pc.toNat + 2 = (sp (st 0 0x01 0 0x03 [0x45, 0]) - 1).toNat ∧
      (st 253 0 0 0x80 [0x50, 7]).mem.wf = true ∧ (st 253 0 0 0x80 [0x50, 7]).pc.toNat + 2 < 256 := by decide

theorem witness_exec_frames :
    (∃ t, exec (.pop 3) State.reset = .next t) ∧ (∀ ra rb, Instr.pop 3 ≠ .cmp ra rb) ∧
      (∀ ra, Instr.pop 3 ≠ .prn ra) ∧ (6 : Reg).val ∉ writtenRegs (.pop 3) ∧ stores (.pop 3) = false ∧
      stores (.call 0) = true ∧ ∃ t, exec (.call 0) State.reset = .next t :=
  ⟨⟨_, rfl⟩, by simp, by simp, by decide, rfl, rfl, _, rfl⟩

theorem witness_OutputListOnlyGrows : ∃ t, step (st 0 7 0 0xFF [0x47, 0]) = .next t ∧ t.out = [7] := ⟨_, rfl, rfl⟩

theorem witness_DecodeAndEncodeAgree :
    opcodeMap.decodeBytes [0x82, 9, 255, 1] = .ok (.ldi 9 255, [1]) := by decide

theorem witness_AssemblyStatementRoundTrip : (Instr.ldi 7 255).wellFormed = true := by decide

theorem witness_UnconsumedBytesAreIgnored : Op.arity .hlt = 0 ∧ Op.arity .call = 1 := by decide

theorem witness_LoadProgramFillsMemoryFromZero :
    (List.replicate 256 (1 : Byte)).length ≤ 256 ∧ 256 < (List.replicate 257 (1 : Byte)).length ∧
      State.reset.mem.wf = true := by
  rw [List.length_replicate, List.length_replicate]
  decide

theorem witness_ResetAppliesToStoppedBlocksOnly :
    (mux .stop State.reset).run ≠ .running ∧ State.reset.run = .running := by decide

theorem witness_RunningBlockAlwaysHasANextState : (st 256 0 0 0xFF []).run = .running := by decide

theorem witness_LaunchStarts : ∃ t, launch Config.rInit [0x82, 0, 255] = .ok t := ⟨_, rfl⟩

end Sys2Proof.Tests
end

/-! ## Reset, stopped blocks and the flags register (10_state.md R22, R25, R28) -/

namespace Sys2Proof.Machine

/-! ### CMP's flags -/

/-- FL as a comparison leaves it: one flag set, the reserved bits 0 (10_state.md R24, R25). -/
theorem flags_oneHot_of_fl_eq_compareFlags {t : State} {a b : Byte} (h : t.fl = compareFlags a b) :
    ((t.flE, t.flG, t.flL) = (true, false, false) ∨ (t.flE, t.flG, t.flL) = (false, true, false) ∨
      (t.flE, t.flG, t.flL) = (false, false, true)) ∧ t.fl.toNat < 8 := by
  unfold State.flE State.flG State.flL
  rcases compareFlags_cases a b with ⟨-, hc⟩ | ⟨-, hc⟩ | ⟨-, hc⟩ <;> rw [h, hc] <;> decide

/-- CMP alone writes FL; a fault leaves it too. -/
theorem Effect.fl_eq_of_not_cmp {s t : State} {i : Instr} (h : Effect s i t) (hi : ∀ ra rb, i ≠ .cmp ra rb) :
    t.fl = s.fl := by
  cases h with
  | cmp => exact absurd rfl (hi _ _)
  | ldi | prn | mul | add | push | pop | call | ret | hlt | badReg | badCall => simp

/-! ### No meaning reads FL -/

/-- Where the first result is a next state, the second is one too and differs from it in FL at most. -/
def SameButFlags (r r' : Result) : Prop := ∀ t, r = .next t → ∃ u, r' = .next u ∧ setFlags t.fl u = t

theorem sameButFlags_next {t u : State} (h : setFlags t.fl u = t) : SameButFlags (.next t) (.next u) := by
  rintro _ ⟨⟩
  exact ⟨u, rfl, h⟩

/-- The check of a register operand does not read FL, so what is done with the register decides. -/
theorem sameButFlags_withReg {op : Op} {b f : Byte} {s : State} {k k' : Reg → Result}
    (hk : ∀ a, SameButFlags (k a) (k' a)) :
    SameButFlags (withReg op b s k) (withReg op b (setFlags f s) k') := by
  by_cases hb : b.toNat < 8
  · rw [withReg_of_lt hb, withReg_of_lt hb]
    exact hk _
  · rw [withReg_of_ge (Nat.not_lt.1 hb), withReg_of_ge (Nat.not_lt.1 hb)]
    exact sameButFlags_next rfl

theorem sameButFlags_withTwoRegs {op : Op} {a b f : Byte} {s : State} {k k' : Reg → Reg → Result}
    (hk : ∀ ra rb, SameButFlags (k ra rb) (k' ra rb)) :
    SameButFlags (withTwoRegs op a b s k) (withTwoRegs op a b (setFlags f s) k') :=
  sameButFlags_withReg fun ra => sameButFlags_withReg (hk ra)

/-- CALL takes the same branch of its bounds check, since FL is no part of pc. -/
theorem sameButFlags_execCall (ra f : Byte) (s : State) :
    SameButFlags (execCall ra s) (execCall ra (setFlags f s)) := by
  refine sameButFlags_withReg fun a => ?_
  rw [setFlags_pc]
  split
  · exact sameButFlags_next rfl
  · exact sameButFlags_next rfl

/-- No meaning reads FL (10_state.md R25). -/
theorem sameButFlags_exec (i : Instr) (f : Byte) (s : State) : SameButFlags (exec i s) (exec i (setFlags f s)) := by
  cases i with
  | ldi | prn | push | pop =>
    simp only [exec]
    exact sameButFlags_withReg fun _ => sameButFlags_next rfl
  | mul | add | cmp =>
    simp only [exec]
    exact sameButFlags_withTwoRegs fun _ _ => sameButFlags_next rfl
  | call => exact sameButFlags_execCall _ f s
  | ret | hlt => exact sameButFlags_next rfl

/-! ### The statements -/

/-- Settles O36: the frame of FL is read off the effects, and no meaning reads FL. -/
theorem onlyCmpWritesFlagsAndNoneReadsThem : Obligations.OnlyCmpWritesFlagsAndNoneReadsThem := by
  refine ⟨fun i s t h hi => (exec_effect h).fl_eq_of_not_cmp hi, fun s ra rb ha hb => ?_,
    fun i s t f h => sameButFlags_exec i f s t h⟩
  obtain ⟨hone, hres⟩ := flags_oneHot_of_fl_eq_compareFlags (t := advance .cmp (setFlags _ s)) rfl
  exact ⟨_, exec_cmp ha hb s, hone, hres, fun f => ⟨_, exec_cmp ha hb (setFlags f s), rfl⟩⟩

/-- Settles O1: both fields are read off the reset laws, whatever R_INIT is. -/
theorem resetStartsRunningAtZero : Obligations.ResetStartsRunningAtZero :=
  ⟨fun rInit => ⟨resetWith_pc rInit, resetWith_run rInit⟩, resetWith_pc Config.rInit, resetWith_run Config.rInit⟩

/-- Settles O31: a step that answers a next state was taken from Running. -/
theorem onlyRunningBlocksStep : Obligations.OnlyRunningBlocksStep :=
  fun _ _ hstopped hstep => hstopped (step_cases hstep).1

end Sys2Proof.Machine


/-! ## Memory's contract and the program load (20_memory.md R34, R49) -/

namespace Sys2Proof.Machine

/-! ### MemWrite -/

theorem memWrite_of_lt {a : Nat} (h : a < 256) (v : Byte) (s : State) :
    memWrite a v s = some { s with mem := s.mem.set a v } := if_pos h

theorem memWrite_of_ge {a : Nat} (h : 256 ≤ a) (v : Byte) (s : State) : memWrite a v s = none :=
  if_neg (Nat.not_lt.2 h)

theorem memWrite_eq_none {a : Nat} {v : Byte} {s : State} : memWrite a v s = none ↔ 256 ≤ a := by
  refine ⟨fun hnone => Nat.not_lt.1 fun hlt => ?_, fun hge => memWrite_of_ge hge v s⟩
  rw [memWrite_of_lt hlt] at hnone
  cases hnone

/-- In canonical memory a write reads back, whatever the cell held. -/
theorem memRead_memWrite_same {a : Nat} {v : Byte} {s t : State} (h : memWrite a v s = some t)
    (hm : s.mem.wf = true) : memRead a t = some v := by
  obtain ⟨ha, rfl⟩ := memWrite_eq_some h
  rw [memRead_of_lt ha]
  exact congrArg some (Memory.get_set_same hm a v)

/-- A write leaves every other address alone, in canonical form or not. -/
theorem memRead_memWrite_other {a a' : Nat} {v : Byte} {s t : State} (h : memWrite a v s = some t) (hne : a' ≠ a) :
    memRead a' t = memRead a' s := by
  obtain ⟨-, rfl⟩ := memWrite_eq_some h
  simp [memRead, hne]

/-- The host port's single write, which skips an address outside memory, leaves every other address alone. -/
theorem memRead_memWrite_getD_other {a a' : Nat} (hne : a' ≠ a) (v : Byte) (s : State) :
    memRead a' ((memWrite a v s).getD s) = memRead a' s := by
  cases h : memWrite a v s with
  | none => rfl
  | some t => exact memRead_memWrite_other h hne

/-! ### The host port's writes -/

/-- The host port's writes leave every address from their last one on alone. -/
theorem memRead_pokeBytes_above {a a' : Nat} {vs : List Byte} (h : a + vs.length ≤ a') (s : State) :
    memRead a' (pokeBytes a vs s) = memRead a' s := by
  induction vs generalizing a s with
  | nil => rfl
  | cons v vs ih =>
    rw [List.length_cons] at h
    rw [pokeBytes, ih (by omega), memRead_memWrite_getD_other (by omega)]

/-- Bytes that fit into a canonical memory read back in order from their first address: each write reads back, and
the later ones are above it. -/
theorem memRead_pokeBytes_of_getElem?_eq_some {a k : Nat} {vs : List Byte} {v : Byte} {s : State} (hm : s.mem.wf = true)
    (hfit : a + vs.length ≤ 256) (hk : vs[k]? = some v) : memRead (a + k) (pokeBytes a vs s) = some v := by
  induction vs generalizing a k s with
  | nil => cases hk
  | cons w vs ih =>
    rw [List.length_cons] at hfit
    obtain ⟨t, hw⟩ : ∃ t, memWrite a w s = some t := ⟨_, memWrite_of_lt (by omega) w s⟩
    rw [pokeBytes, hw, Option.getD_some]
    cases k with
    | zero =>
      obtain rfl : w = v := Option.some.inj hk
      rw [Nat.add_zero, memRead_pokeBytes_below (Nat.lt_succ_self a)]
      exact memRead_memWrite_same hw hm
    | succ k =>
      rw [← Nat.succ_add_eq_add_succ]
      exact ih (memWrite_keeps_wf hw hm) (by omega) hk

/-! ### The program load -/

theorem loadProgram_of_gt {vs : List Byte} (h : 256 < vs.length) (s : State) :
    loadProgram vs s = .error .programTooLarge := if_pos h

theorem loadProgram_of_le {vs : List Byte} (h : vs.length ≤ 256) (s : State) :
    loadProgram vs s = .ok (pokeBytes 0 vs s) := if_neg (Nat.not_lt.2 h)

/-- Reset leaves memory zero-filled (20_memory.md R36). -/
theorem memRead_resetWith {a : Nat} (h : a < 256) (rInit : Fin 7 → Byte) :
    memRead a (State.resetWith rInit) = some 0x00 := memRead_of_lt h _

/-! ### The statements -/

/-- Settles O9: both bounds are the ports' own, and a successful write is one cell's `Memory.set`. -/
theorem memoryPortContract : Obligations.MemoryPortContract := by
  intro s a v
  refine ⟨memRead_eq_none.trans Nat.not_lt.symm, memWrite_eq_none.trans Nat.not_lt.symm, fun t h =>
    ⟨memRead_memWrite_same h, fun a' => memRead_memWrite_other h, ?_⟩⟩
  obtain ⟨-, rfl⟩ := memWrite_eq_some h
  exact ⟨fun _ => rfl, rfl, rfl, rfl, rfl, rfl⟩

/-- Settles O48: the load is `pokeBytes` from address 0, whose reads are known at, and above, the bytes it writes. -/
theorem loadProgramFillsMemoryFromZero : Obligations.LoadProgramFillsMemoryFromZero := by
  intro vs s
  refine ⟨fun h => loadProgram_of_gt h s, fun hfit => ⟨_, loadProgram_of_le hfit s, ?_⟩⟩
  have habove : ∀ a, vs.length ≤ a → memRead a (pokeBytes 0 vs s) = memRead a s :=
    fun a ha => memRead_pokeBytes_above (by omega) s
  refine ⟨fun hm k v hk => ?_, habove, fun a rInit hs ha hlt => ?_, ?_⟩
  · rw [← Nat.zero_add k]
    exact memRead_pokeBytes_of_getElem?_eq_some hm (by omega) hk
  · rw [habove a ha, hs, memRead_resetWith hlt]
  · obtain ⟨m, hpoke, -⟩ := pokeBytes_fields 0 vs s
    rw [hpoke]
    exact ⟨fun _ => rfl, rfl, rfl, rfl, rfl⟩

end Sys2Proof.Machine


/-! ## The output port (41_output.md R76) -/

namespace Sys2Proof.Machine

/-! ### Who reaches the output list -/

/-- PRN alone reaches the output list; a fault leaves it too. -/
theorem Effect.out_eq_of_not_prn {s t : State} {i : Instr} (h : Effect s i t) (hi : ∀ ra, i ≠ .prn ra) :
    t.out = s.out := by
  cases h with
  | prn => exact absurd rfl (hi _)
  | ldi | mul | add | cmp | push | pop | call | ret | hlt | badReg | badCall => simp

/-- The output port is not memory-mapped. -/
theorem memWrite_out {a : Nat} {v : Byte} {s t : State} (h : memWrite a v s = some t) : t.out = s.out := by
  obtain ⟨-, rfl⟩ := memWrite_eq_some h
  rfl

/-! ### Nothing is read back from the output list -/

/-- Where the first result is a next state, the second is one too and differs from it in the output list at most. -/
def SameButOut (r r' : Result) : Prop := ∀ t, r = .next t → ∃ u, r' = .next u ∧ { u with out := t.out } = t

theorem sameButOut_next {t u : State} (h : { u with out := t.out } = t) : SameButOut (.next t) (.next u) := by
  rintro _ ⟨⟩
  exact ⟨u, rfl, h⟩

/-- The check of a register operand does not read the output list, so what is done with the register decides. -/
theorem sameButOut_withReg {op : Op} {b : Byte} {o : List Byte} {s : State} {k k' : Reg → Result}
    (hk : ∀ a, SameButOut (k a) (k' a)) :
    SameButOut (withReg op b s k) (withReg op b { s with out := o } k') := by
  by_cases hb : b.toNat < 8
  · rw [withReg_of_lt hb, withReg_of_lt hb]
    exact hk _
  · rw [withReg_of_ge (Nat.not_lt.1 hb), withReg_of_ge (Nat.not_lt.1 hb)]
    exact sameButOut_next rfl

theorem sameButOut_withTwoRegs {op : Op} {a b : Byte} {o : List Byte} {s : State} {k k' : Reg → Reg → Result}
    (hk : ∀ ra rb, SameButOut (k ra rb) (k' ra rb)) :
    SameButOut (withTwoRegs op a b s k) (withTwoRegs op a b { s with out := o } k') :=
  sameButOut_withReg fun ra => sameButOut_withReg (hk ra)

/-- CALL takes the same branch of its bounds check, since the output list is no part of pc. -/
theorem sameButOut_execCall (ra : Byte) (o : List Byte) (s : State) :
    SameButOut (execCall ra s) (execCall ra { s with out := o }) := by
  refine sameButOut_withReg fun a => ?_
  dsimp only
  split
  · exact sameButOut_next rfl
  · exact sameButOut_next rfl

/-- No meaning reads the output list; PRN only appends to it (41_output.md R75, R76). -/
theorem sameButOut_exec (i : Instr) (o : List Byte) (s : State) :
    SameButOut (exec i s) (exec i { s with out := o }) := by
  cases i with
  | ldi | prn | push | pop =>
    simp only [exec]
    exact sameButOut_withReg fun _ => sameButOut_next rfl
  | mul | add | cmp =>
    simp only [exec]
    exact sameButOut_withTwoRegs fun _ _ => sameButOut_next rfl
  | call => exact sameButOut_execCall _ o s
  | ret | hlt => exact sameButOut_next rfl

/-! ### The statement -/

/-- Settles O37: the frame of the output list is read off the effects and the memory port, and no meaning reads it. -/
theorem onlyPrnReachesTheOutputPort : Obligations.OnlyPrnReachesTheOutputPort :=
  ⟨fun _ _ _ h hi => (exec_effect h).out_eq_of_not_prn hi, fun _ _ _ _ h => memWrite_out h,
    fun i s t o h => sameButOut_exec i o s t h⟩

end Sys2Proof.Machine

/-! SUPPORT. The ALU's arithmetic as numbers: each result of ADD, MUL, INC and DEC is the exact one reduced mod 256. -/

namespace Sys2Proof.Machine

/-! ### The ALU's results as numbers -/

theorem toNat_alu_add (a b : Byte) : (alu .add a b).toNat = (a.toNat + b.toNat) % 256 := by
  rw [alu_add, BitVec.toNat_add]

theorem toNat_alu_mul (a b : Byte) : (alu .mul a b).toNat = (a.toNat * b.toNat) % 256 := by
  rw [alu_mul, BitVec.toNat_mul]

theorem toNat_alu_inc (a b : Byte) : (alu .inc a b).toNat = (a.toNat + 1) % 256 := by
  rw [alu_inc, BitVec.toNat_add]
  rfl

/-- The remainder is the non-negative one of 00_scope.md R11, so 0 - 1 reduces to 255. -/
theorem toNat_alu_dec (a b : Byte) : ((alu .dec a b).toNat : Int) = ((a.toNat : Int) - 1) % 256 := by
  have hsub : (alu .dec a b).toNat = (255 + a.toNat) % 256 := by
    rw [alu_dec, BitVec.toNat_sub]
    rfl
  omega

/-! ### The statements -/

/-- Settles O5: both results are read off as numbers. -/
theorem aluAddAndMulReduceMod256 : Obligations.AluAddAndMulReduceMod256 :=
  fun a b => ⟨toNat_alu_add a b, toNat_alu_mul a b⟩

/-- Settles O6: the results are read off as numbers, and the laws of `pop` and `push` give the stack pointer's new
value as the same increment and decrement. -/
theorem aluIncAndDecReduceMod256 : Obligations.AluIncAndDecReduceMod256 := by
  refine ⟨fun a b => ⟨toNat_alu_inc a b, toNat_alu_dec a b⟩, fun b => ⟨?_, ?_⟩, fun s v => ⟨?_, ?_⟩⟩
  · rw [alu_inc]
    rfl
  · rw [alu_dec]
    rfl
  · rw [sp_pop, alu_inc]
  · rw [sp_push, alu_dec]

end Sys2Proof.Machine

/-! ## The stack (43_stack.md R88, R89) -/

namespace Sys2Proof.Machine

/-! ### The frames of push and pop -/

theorem regsSameBut_push (v : Byte) (s : State) : RegsSameBut [7] s (push v s) := by
  intro r hr
  have hne : Config.spIndex ≠ r := fun h => hr (List.mem_singleton.2 h.symm)
  rw [reg_push, if_neg hne]

theorem regsSameBut_pop (s : State) : RegsSameBut [7] s (pop s).2 := by
  intro r hr
  have hne : Config.spIndex ≠ r := fun h => hr (List.mem_singleton.2 h.symm)
  rw [reg_pop, if_neg hne]

/-- The decrement comes before the write: the byte pushed stands at the new stack pointer. -/
theorem memRead_sp_push {s : State} (hm : s.mem.wf = true) (v : Byte) :
    memRead (sp (push v s)).toNat (push v s) = some v := by
  rw [sp_push]
  exact memRead_push_same hm v

theorem memSameBut_push (v : Byte) (s : State) : MemSameBut (sp (push v s)) s (push v s) := by
  intro a ha
  rw [sp_push] at ha
  exact memRead_push_other ha v

/-- The read comes before the increment: the byte popped stands at the old stack pointer. -/
theorem memRead_sp_eq_pop_value (s : State) : memRead (sp s).toNat s = some (pop s).1 := memRead_toNat (sp s) s

/-! ### The statements -/

/-- Settles O10: the byte pushed, whichever it is, is written at the decremented pointer, so pushing the pointer itself
stores its old value. -/
theorem pushDecrementsThenWrites : Obligations.PushDecrementsThenWrites := by
  intro s v
  have hsp : sp (push v s) = alu .dec (sp s) aluOne := by rw [sp_push, alu_dec]
  exact ⟨hsp, fun hm => ⟨memRead_sp_push hm v, memRead_sp_push hm (sp s)⟩, memSameBut_push v s, regsSameBut_push v s,
    push_pc v s, push_fl v s, push_run v s, push_out v s⟩

/-- Settles O11: the byte is read at the old pointer, and the increment touches the pointer alone. -/
theorem popReadsThenIncrements : Obligations.PopReadsThenIncrements := by
  intro s
  have hsp : sp (pop s).2 = alu .inc (sp s) aluOne := by rw [sp_pop, alu_inc]
  exact ⟨memRead_sp_eq_pop_value s, hsp, fun a => memRead_pop a s, regsSameBut_pop s, pop_pc s, pop_fl s, pop_run s,
    pop_out s⟩

end Sys2Proof.Machine

/-! ## The fault kinds a step raises (60_exceptions.md R99 to R102) -/

namespace Sys2Proof.Machine

/-- The state t is s with a fault raised, of a kind that some rule of the spec raises (60_exceptions.md R99 to R101). -/
def RaisedFrom (s t : State) : Prop := ∃ k o d, k ≠ .aluUnsupported ∧ t = raise k o d s

theorem RaisedFrom.kind_ne_aluUnsupported {s t : State} {r : FaultRecord} (h : RaisedFrom s t)
    (ht : t.run = .error r) : r.kind ≠ .aluUnsupported := by
  obtain ⟨k, o, d, hk, rfl⟩ := h
  rw [raise_run] at ht
  cases ht
  exact hk

theorem raisedFrom_raiseDecode (e : DecodeError) (b0 : Byte) (s : State) : RaisedFrom s (raiseDecode e b0 s) := by
  cases e with
  | invalidInstruction => exact ⟨.invalidInstruction, _, _, by decide, rfl⟩
  | missingByte => exact ⟨.outOfBounds, _, _, by decide, rfl⟩

/-- An instruction that takes a Running block to Error raised a fault: where it completes, the block goes on Running or
is Halted. -/
theorem Effect.raisedFrom_of_error {s t : State} {i : Instr} {r : FaultRecord} (h : Effect s i t)
    (hs : s.run = .running) (ht : t.run = .error r) : RaisedFrom s t := by
  cases h with
  | badReg => exact ⟨.invalidRegister, _, _, by decide, rfl⟩
  | badCall => exact ⟨.outOfBounds, _, _, by decide, rfl⟩
  | ldi | prn | mul | add | cmp | push | pop | call | ret | hlt => simp [hs] at ht

/-- A step comes to Error only by raising a fault, at fetch, at decode or in the instruction. -/
theorem step_raisedFrom_of_error {s t : State} {r : FaultRecord} (h : step s = .next t) (ht : t.run = .error r) :
    RaisedFrom s t := by
  obtain ⟨hs, ⟨-, rfl⟩ | ⟨f, -, ⟨e, -, rfl⟩ | ⟨i, -, hexec⟩⟩⟩ := step_cases h
  · exact ⟨.outOfBounds, _, _, by decide, rfl⟩
  · exact raisedFrom_raiseDecode e f.b0 s
  · exact (exec_effect hexec).raisedFrom_of_error hs ht

/-! ### The statement -/

/-- Settles O28: every way a step has into Error raises one of the other three kinds. -/
theorem aluUnsupportedIsNeverRaised : Obligations.AluUnsupportedIsNeverRaised :=
  fun _ _ _ hstep herr => (step_raisedFrom_of_error hstep herr).kind_ne_aluUnsupported herr

end Sys2Proof.Machine

/-! ## The decoder and the encoder (30_encoding.md R57 to R59, R66, R67) -/

namespace Sys2Proof

/-! ### Decoding what was encoded -/

theorem OpcodeMap.decode_of_lookup_eq_none {m : OpcodeMap} {f : Fetched} (h : m.lookup f.b0 = none) :
    m.decode f = .error .invalidInstruction := by
  simp only [OpcodeMap.decode, h]

theorem OpcodeMap.decode_of_lookup_eq_some {m : OpcodeMap} {f : Fetched} {op : Op} (h : m.lookup f.b0 = some op) :
    m.decode f = op.withOperands f := by
  simp only [OpcodeMap.decode, h]

/-- A fetch whose bytes are an operation's and the operands that an instruction of it consumes is that instruction. -/
theorem OpcodeMap.decode_of_operands {m : OpcodeMap} {f : Fetched} {i : Instr} (h0 : m.lookup f.b0 = some i.op)
    (h1 : ∀ b, i.operands[0]? = some b → f.b1 = some b) (h2 : ∀ b, i.operands[1]? = some b → f.b2 = some b) :
    m.decode f = .ok i := by
  rw [OpcodeMap.decode_of_lookup_eq_some h0]
  cases i with
  | ldi | mul | add | cmp => simp only [Instr.op, Op.withOperands, twoOperands, h1 _ rfl, h2 _ rfl]
  | prn | push | pop | call => simp only [Instr.op, Op.withOperands, oneOperand, h1 _ rfl]
  | ret | hlt => rfl

/-- Operation for operation, a map with distinct bytes finds what it was given. -/
theorem OpcodeMap.lookup_byteOf {m : OpcodeMap} (hm : Machine.DistinctBytes m) (op : Op) :
    m.lookup (m.byteOf op) = some op := by
  cases h : m.lookup (m.byteOf op) with
  | none => exact absurd rfl (OpcodeMap.lookup_eq_none.1 h op)
  | some op' => rw [hm op' op (OpcodeMap.byteOf_of_lookup h)]

theorem OpcodeMap.decodeBytes_encode_append {m : OpcodeMap} (hm : Machine.DistinctBytes m) (i : Instr)
    (rest : List Byte) : m.decodeBytes (m.encode i ++ rest) = .ok (i, rest) := by
  have operand_at : ∀ (k : Nat) (b : Byte), i.operands[k]? = some b → (i.operands ++ rest)[k]? = some b :=
    fun k b h => (List.getElem?_append_left (List.getElem?_eq_some_iff.1 h).1).trans h
  have hdecode : m.decode ⟨m.byteOf i.op, (i.operands ++ rest)[0]?, (i.operands ++ rest)[1]?⟩ = .ok i :=
    OpcodeMap.decode_of_operands (OpcodeMap.lookup_byteOf hm i.op) (operand_at 0) (operand_at 1)
  have hdrop : (m.byteOf i.op :: (i.operands ++ rest)).drop i.op.width = rest := by
    rw [← OpcodeMap.length_encode m i]
    exact List.drop_left
  simp only [OpcodeMap.encode, List.cons_append, OpcodeMap.decodeBytes, Fetched.ofBytes, hdecode, hdrop]

/-! ### Encoding what was decoded -/

/-- Bytes that stand at the head of the two after an opcode byte stand at the head of the run they come from. -/
theorem eq_append_drop_of_map_some {l tl : List Byte} {absent : List (Option Byte)}
    (h : [tl[0]?, tl[1]?] = l.map some ++ absent) : tl = l ++ tl.drop l.length := by
  match l, tl with
  | [], _ => rfl
  | [a], [] => simp at h
  | [a], x :: tl =>
    obtain ⟨rfl, -⟩ : x = a ∧ _ := by simpa using h
    rfl
  | [a, b], [] => simp at h
  | [a, b], [x] => simp at h
  | [a, b], x :: y :: tl =>
    obtain ⟨rfl, rfl, -⟩ : x = a ∧ y = b ∧ _ := by simpa using h
    rfl
  | a :: b :: c :: l, _ => simp at h

theorem OpcodeMap.eq_encode_append_of_decodeBytes {m : OpcodeMap} {bs rest : List Byte} {i : Instr}
    (h : m.decodeBytes bs = .ok (i, rest)) : bs = m.encode i ++ rest := by
  cases bs with
  | nil => cases h
  | cons b0 tl =>
    simp only [OpcodeMap.decodeBytes, Fetched.ofBytes] at h
    split at h
    · cases h
    · rename_i j hj
      cases h
      obtain ⟨hlookup, absent, hops⟩ := OpcodeMap.decode_ok hj
      have htl : tl = i.operands ++ tl.drop i.op.arity := by
        rw [← Instr.length_operands]
        exact eq_append_drop_of_map_some hops
      have hwidth : (b0 :: tl).drop i.op.width = tl.drop i.op.arity := by
        rw [Op.width, Nat.add_comm, List.drop_succ_cons]
      have hb0 : m.byteOf i.op = b0 := OpcodeMap.byteOf_of_lookup hlookup
      rw [hwidth, OpcodeMap.encode, hb0, List.cons_append, ← htl]

/-! ### The machine's own map -/

theorem distinctBytes_opcodeMap : Machine.DistinctBytes opcodeMap := by
  intro op op' h
  have hfound : some op = some op' := by rw [← opcodeMap_lookup_byteOf op, h, opcodeMap_lookup_byteOf]
  exact Option.some.inj hfound

theorem decode_byteOf (op : Op) (b1 b2 : Option Byte) :
    decode ⟨opcodeMap.byteOf op, b1, b2⟩ = op.withOperands ⟨opcodeMap.byteOf op, b1, b2⟩ :=
  OpcodeMap.decode_of_lookup_eq_some (opcodeMap_lookup_byteOf op)

/-- The byte values that are some operation's, as numbers. -/
def legalBytes : List Nat := Op.all.map fun op => (opcodeMap.byteOf op).toNat

theorem mem_legalBytes {n : Nat} (h : n < 256) :
    n ∈ legalBytes ↔ (!(opcodeMap.lookup (BitVec.ofNat 8 n)).isNone) = true := by
  have hn : (BitVec.ofNat 8 n).toNat = n := by simpa using h
  rw [legalBytes, List.mem_map]
  constructor
  · rintro ⟨op, -, rfl⟩
    simp
  · intro hfound
    cases hop : opcodeMap.lookup (BitVec.ofNat 8 n) with
    | none => simp [hop] at hfound
    | some op => exact ⟨op, Op.mem_all op, by rw [OpcodeMap.byteOf_of_lookup hop, hn]⟩

/-- The ten legal values are distinct and below 256, so the other 246 are illegal. -/
theorem length_filter_lookup_eq_none :
    ((List.range 256).filter fun n => (opcodeMap.lookup (BitVec.ofNat 8 n)).isNone).length = 246 := by
  have hlt : ∀ n ∈ legalBytes, n < 256 := by decide
  have hlegal : ((List.range 256).filter fun n => !(opcodeMap.lookup (BitVec.ofNat 8 n)).isNone).Perm legalBytes := by
    refine (List.perm_ext_iff_of_nodup (List.nodup_range.filter _) (by decide)).2 fun n => ?_
    rw [List.mem_filter, List.mem_range]
    exact ⟨fun ⟨h, hfound⟩ => (mem_legalBytes h).2 hfound, fun h => ⟨hlt n h, (mem_legalBytes (hlt n h)).1 h⟩⟩
  have hsplit := List.length_eq_length_filter_add (l := List.range 256)
    fun n => (opcodeMap.lookup (BitVec.ofNat 8 n)).isNone
  rw [hlegal.length_eq, List.length_range, show legalBytes.length = 10 from rfl] at hsplit
  omega

/-! ### The statements -/

/-- Settles O43: decoding reads the operands back from their places, and what decodes has its opcode byte and its
operands at the head of the run. -/
theorem decodeAndEncodeAgree : Obligations.DecodeAndEncodeAgree :=
  ⟨distinctBytes_opcodeMap, fun _ hm =>
    ⟨OpcodeMap.decodeBytes_encode_append hm, fun _ _ _ h => OpcodeMap.eq_encode_append_of_decodeBytes h⟩⟩

/-- Settles O44: each word is a closed term that the decoder computes. -/
theorem opcodeTableWordsDecode : Obligations.OpcodeTableWordsDecode := by
  unfold Obligations.OpcodeTableWordsDecode
  decide

/-- Settles O45: a byte is found or refused, and an operation reads no more bytes than its arity. -/
theorem unconsumedBytesAreIgnored : Obligations.UnconsumedBytesAreIgnored := by
  refine ⟨fun f => ?_, fun op b1 b2 => ⟨fun harity b1' b2' => ?_, fun harity b2' => ?_⟩⟩
  · cases h : opcodeMap.lookup f.b0 with
    | none => exact .inr (OpcodeMap.decode_of_lookup_eq_none h)
    | some op => exact .inl ⟨op, (OpcodeMap.byteOf_of_lookup h).symm⟩
  · rw [decode_byteOf, decode_byteOf]
    cases op with
    | ret | hlt => rfl
    | ldi | prn | mul | add | cmp | push | pop | call => cases harity
  · rw [decode_byteOf, decode_byteOf]
    cases op with
    | prn | push | pop | call => rfl
    | ldi | mul | add | cmp | ret | hlt => cases harity

/-- Settles O46: the illegal bytes are counted as what the legal ones leave. -/
theorem illegalBytesAreTheOther246 : Obligations.IllegalBytesAreTheOther246 :=
  ⟨length_filter_lookup_eq_none, by decide, by decide⟩

end Sys2Proof

/-! ## The state invariant (10_state.md R21, R24; 60_exceptions.md R99 to R104) -/

namespace Sys2Proof.Machine

/-! ### pc stays in 0..256 -/

@[simp] theorem toNat_mux_jump_pc (t : Byte) (s : State) : (mux (.jump t) s).pc.toNat = t.toNat := by
  rw [mux_jump_pc, BitVec.toNat_ofNat]
  omega

theorem toNat_advance_pc {op : Op} {s : State} (h : s.pc.toNat + op.width < 512) :
    (advance op s).pc.toNat = s.pc.toNat + op.width := by
  rw [advance_pc, BitVec.toNat_add, BitVec.toNat_ofNat]
  omega

/-- An instruction that fits into memory leaves pc at 256 at most (10_state.md R21). -/
theorem Effect.pcInRange {s t : State} {i : Instr} (h : Effect s i t) (hfit : s.pc.toNat + i.op.width ≤ 256) :
    PcInRange t := by
  have hpc : s.pc.toNat ≤ 256 := by omega
  have hadv : ∀ u : State, u.pc = s.pc → PcInRange (advance i.op u) := by
    intro u hu
    rw [PcInRange, toNat_advance_pc (by rw [hu]; omega), hu]
    exact hfit
  have hjump : ∀ (v : Byte) (u : State), PcInRange (mux (.jump v) u) := by
    intro v u
    rw [PcInRange, toNat_mux_jump_pc]
    omega
  cases h with
  | ldi | prn | mul | add | cmp | push | pop => exact hadv _ rfl
  | call | ret => exact hjump _ _
  | hlt | badReg | badCall => exact hpc

/-! ### Memory stays canonical and FL legal -/

theorem Effect.mem_wf {s t : State} {i : Instr} (h : Effect s i t) (hs : s.mem.wf = true) : t.mem.wf = true := by
  cases h with
  | push | call => exact push_keeps_wf hs _
  | ldi | prn | mul | add | cmp | pop | ret | hlt | badReg | badCall => exact hs

theorem Effect.flagsLegal {s t : State} {i : Instr} (h : Effect s i t) (hs : FlagsLegal s) : FlagsLegal t := by
  cases h with
  | cmp ha hb =>
    rcases compareFlags_cases (reg ⟨_, ha⟩ s) (reg ⟨_, hb⟩ s) with ⟨-, hc⟩ | ⟨-, hc⟩ | ⟨-, hc⟩
    · exact .inr (.inl hc)
    · exact .inr (.inr (.inl hc))
    · exact .inr (.inr (.inr hc))
  | ldi | prn | mul | add | push | pop | call | ret | hlt | badReg | badCall => exact hs

/-! ### The records that a step raises -/

theorem recordLegal_invalidRegister (pc : PcWord) (op : Op) {b : Byte} (hb : 8 ≤ b.toNat) :
    RecordLegal pc ⟨.invalidRegister, pc, some (opcodeByte op), .index b⟩ :=
  ⟨rfl, ⟨opcodeByte op, op, rfl, opcodeMap_lookup_byteOf op⟩, b, rfl, hb⟩

/-- The first address past memory, reported by an instruction whose opcode byte is inside it. -/
theorem recordLegal_outOfBounds {pc : PcWord} {a : Nat} (b : Byte) (ha : a = 256) (hpc : pc.toNat < 256) :
    RecordLegal pc ⟨.outOfBounds, pc, some b, .addr a⟩ := by
  subst ha
  exact ⟨rfl, rfl, fun h => (by cases h), fun h => absurd h (by omega)⟩

theorem recordLegal_invalidInstruction (pc : PcWord) {b : Byte} (hb : opcodeMap.lookup b = none) :
    RecordLegal pc ⟨.invalidInstruction, pc, some b, .none⟩ :=
  ⟨rfl, ⟨b, rfl, hb⟩, rfl⟩

theorem recordLegal_fetch {pc : PcWord} (hpc : pc.toNat = 256) :
    RecordLegal pc ⟨.outOfBounds, pc, none, .addr pc.toNat⟩ :=
  ⟨rfl, congrArg FaultDetail.addr hpc, fun _ => hpc, fun _ => rfl⟩

/-- Why a fetch inside memory decodes to nothing: its byte is no operation's, or the operand byte missing is the first
one past memory. -/
theorem decode_error_cases {s : State} {f : Fetched} {e : DecodeError} (hf : fetch s = some f)
    (he : decode f = .error e) :
    (e = .invalidInstruction ∧ opcodeMap.lookup f.b0 = none) ∨ ∃ k, e = .missingByte k ∧ s.pc.toNat + k = 256 := by
  obtain ⟨hpc, -, h1, h2⟩ := fetch_some hf
  rcases OpcodeMap.decode_error he with ⟨hb, rfl⟩ | ⟨op, -, ⟨-, hn1, rfl⟩ | ⟨-, hs1, hn2, rfl⟩⟩
  · exact .inl ⟨rfl, hb⟩
  · have hge : 256 ≤ s.pc.toNat + 1 := memRead_eq_none.1 (h1 ▸ hn1)
    exact .inr ⟨1, rfl, by omega⟩
  · have hge : 256 ≤ s.pc.toNat + 2 := memRead_eq_none.1 (h2 ▸ hn2)
    have hlt : ¬ 256 ≤ s.pc.toNat + 1 := fun h => hs1 (h1.trans (memRead_eq_none.2 h))
    exact .inr ⟨2, rfl, by omega⟩

/-- Raising a legal record keeps the invariant: nothing but the run state changes (60_exceptions.md R98). -/
theorem StateInv.raise {s : State} {k : FaultKind} {o : Option Byte} {d : FaultDetail} (hs : StateInv s)
    (hr : RecordLegal s.pc ⟨k, s.pc, o, d⟩) : StateInv (raise k o d s) where
  mem_wf := hs.mem_wf
  pc_inRange := hs.pc_inRange
  flags_legal := hs.flags_legal
  error_legal := by
    rintro r hrun
    cases hrun
    exact hr

theorem StateInv.raiseDecode {s : State} {f : Fetched} {e : DecodeError} (hs : StateInv s) (hf : fetch s = some f)
    (he : decode f = .error e) : StateInv (raiseDecode e f.b0 s) := by
  rcases decode_error_cases hf he with ⟨rfl, hb⟩ | ⟨k, rfl, hk⟩
  · exact hs.raise (recordLegal_invalidInstruction s.pc hb)
  · exact hs.raise (recordLegal_outOfBounds f.b0 hk (fetch_some hf).1)

/-- A Running block's instruction that comes to Error has a legal record: CALL's missing return address is the first one
past memory where the CALL itself fits. -/
theorem Effect.errorLegal {s t : State} {i : Instr} (h : Effect s i t) (hrun : s.run = .running)
    (hfit : s.pc.toNat + i.op.width ≤ 256) : ErrorLegal t := by
  intro r hr
  cases h with
  | badReg hb => cases hr; exact recordLegal_invalidRegister s.pc _ hb
  | badCall hp =>
    have htop : s.pc.toNat + 2 = 256 := Nat.le_antisymm hfit hp
    have hpc : s.pc.toNat < 256 := by omega
    cases hr
    exact recordLegal_outOfBounds _ htop hpc
  | ldi | prn | mul | add | cmp | push | pop | call | ret | hlt => simp [hrun] at hr

theorem Effect.stateInv {s t : State} {i : Instr} (h : Effect s i t) (hs : StateInv s) (hrun : s.run = .running)
    (hfit : s.pc.toNat + i.op.width ≤ 256) : StateInv t :=
  ⟨h.mem_wf hs.mem_wf, h.pcInRange hfit, h.flagsLegal hs.flags_legal, h.errorLegal hrun hfit⟩

theorem resetWith_stateInv (rInit : Fin 7 → Byte) : StateInv (State.resetWith rInit) where
  mem_wf := resetWith_mem_wf rInit
  pc_inRange := by rw [PcInRange, resetWith_pc]; decide
  flags_legal := .inl (resetWith_fl rInit)
  error_legal := by
    intro r hr
    rw [resetWith_run] at hr
    cases hr

/-! ### The statements -/

/-- Settles O4: a fault raised at fetch or at decode has a legal record, and an instruction that was decoded lies inside
memory, so its effect keeps every part. -/
theorem stepKeepsTheStateInvariant : Obligations.StepKeepsTheStateInvariant := by
  intro s t hs hstep
  obtain ⟨hrun, ⟨hpc, rfl⟩ | ⟨f, hf, ⟨e, he, rfl⟩ | ⟨i, hi, hexec⟩⟩⟩ := step_cases hstep
  · exact hs.raise (recordLegal_fetch (Nat.le_antisymm hs.pc_inRange hpc))
  · exact hs.raiseDecode hf he
  · exact (exec_effect hexec).stateInv hs hrun (decoded_fits hf hi)

/-- Settles O3: the reset laws give each part, for every R_INIT. -/
theorem resetSatisfiesTheStateInvariant : Obligations.ResetSatisfiesTheStateInvariant :=
  ⟨resetWith_stateInv, resetWith_stateInv Config.rInit⟩

end Sys2Proof.Machine

/-! ## What a step runs (30_encoding.md R63 to R71) -/

namespace Sys2Proof.Machine

/-! ### The step, by what its fetch decodes to -/

theorem fetch_of_memRead {s : State} {b0 : Byte} (h : memRead s.pc.toNat s = some b0) :
    fetch s = some ⟨b0, memRead (s.pc.toNat + 1) s, memRead (s.pc.toNat + 2) s⟩ := by
  simp only [fetch, h]

theorem step_of_fetch_eq_none {s : State} (hrun : s.run = .running) (hf : fetch s = none) :
    step s = .next (raise .outOfBounds none (.addr s.pc.toNat) s) := by
  simp only [step_of_running hrun, cycle, hf]

theorem step_of_decode_error {s : State} {f : Fetched} {e : DecodeError} (hrun : s.run = .running)
    (hf : fetch s = some f) (he : decode f = .error e) : step s = .next (raiseDecode e f.b0 s) := by
  simp only [step_of_running hrun, cycle, hf, he]

theorem step_of_decode_ok {s : State} {f : Fetched} {i : Instr} (hrun : s.run = .running) (hf : fetch s = some f)
    (hi : decode f = .ok i) : step s = exec i s := by
  simp only [step_of_running hrun, cycle, hf, hi]

/-- A checked register operand answers a next state where what is done with the register does. -/
theorem withReg_eq_next {op : Op} {b : Byte} {s : State} {k : Reg → Result} (hk : ∀ a, ∃ t, k a = .next t) :
    ∃ t, withReg op b s k = .next t := by
  by_cases hb : b.toNat < 8
  · rw [withReg_of_lt hb]
    exact hk _
  · rw [withReg_of_ge (Nat.not_lt.1 hb)]
    exact ⟨_, rfl⟩

theorem withTwoRegs_eq_next {op : Op} {a b : Byte} {s : State} {k : Reg → Reg → Result}
    (hk : ∀ ra rb, ∃ t, k ra rb = .next t) : ∃ t, withTwoRegs op a b s k = .next t :=
  withReg_eq_next fun ra => withReg_eq_next (hk ra)

/-- No instruction ends in a fault outcome or a refusal. -/
theorem exec_eq_next (i : Instr) (s : State) : ∃ t, exec i s = .next t := by
  cases i with
  | ldi | prn | push | pop =>
    simp only [exec]
    exact withReg_eq_next fun _ => ⟨_, rfl⟩
  | mul | add | cmp =>
    simp only [exec]
    exact withTwoRegs_eq_next fun _ _ => ⟨_, rfl⟩
  | call =>
    simp only [exec]
    refine withReg_eq_next fun a => ?_
    split
    · exact ⟨_, rfl⟩
    · exact ⟨_, rfl⟩
  | ret | hlt => exact ⟨_, rfl⟩

/-- Only HLT takes a Running block to Halted. -/
theorem Effect.eq_hlt_of_halted {s t : State} {i : Instr} (h : Effect s i t) (hs : s.run = .running)
    (ht : t.run = .halted) : i = .hlt := by
  cases h with
  | hlt => rfl
  | ldi | prn | mul | add | cmp | push | pop | call | ret | badReg | badCall => simp [hs] at ht

/-- PRN appends one byte to the output list, and every other effect leaves it. -/
theorem Effect.out_grows {s t : State} {i : Instr} (h : Effect s i t) : t.out = s.out ∨ ∃ v, t.out = s.out ++ [v] := by
  cases h with
  | prn => exact .inr ⟨_, rfl⟩
  | ldi | mul | add | cmp | push | pop | call | ret | hlt | badReg | badCall => exact .inl rfl

theorem raiseDecode_run (e : DecodeError) (b0 : Byte) (s : State) : ∃ r, (raiseDecode e b0 s).run = .error r := by
  cases e with
  | invalidInstruction => exact ⟨_, rfl⟩
  | missingByte => exact ⟨_, rfl⟩

theorem raiseDecode_out (e : DecodeError) (b0 : Byte) (s : State) : (raiseDecode e b0 s).out = s.out := by
  cases e with
  | invalidInstruction => rfl
  | missingByte => rfl

/-! ### The statements -/

/-- Settles O29: the byte at pc makes the fetch, and its decode is what the step runs. -/
theorem stepRunsTheDecodedInstruction : Obligations.StepRunsTheDecodedInstruction :=
  fun _ _ _ hrun hb hi => step_of_decode_ok hrun (fetch_of_memRead hb) hi

/-- Settles O30: the encoding's bytes are what the fetch delivers, so the fetch decodes to the instruction. -/
theorem stepRunsTheEncodedInstruction : Obligations.StepRunsTheEncodedInstruction := by
  intro s i hrun hbytes
  refine step_of_decode_ok hrun (fetch_of_memRead (hbytes 0 _ rfl)) ?_
  exact OpcodeMap.decode_of_operands (opcodeMap_lookup_byteOf i.op) (hbytes 1) (hbytes 2)

/-- Settles O25: a decode goes through the lookup, and a lookup that finds nothing is refused as invalid. -/
theorem invalidOpcodeRaisesInvalidInstruction : Obligations.InvalidOpcodeRaisesInvalidInstruction := by
  refine ⟨fun f i h => (OpcodeMap.decode_ok h).1, fun s b0 hrun hb hnone => ?_⟩
  exact step_of_decode_error hrun (fetch_of_memRead hb) (OpcodeMap.decode_of_lookup_eq_none hnone)

/-- Settles O32: both answers are `stepFrom`'s own. -/
theorem stoppedBlockNamesWhy : Obligations.StoppedBlockNamesWhy := by
  intro s
  refine ⟨fun h => ?_, fun r h => ?_⟩
  · rw [step, stepFrom, h]
  · rw [step, stepFrom, h]

/-- Settles O33: a fetch or a decode that fails raises a fault, a next state, and every instruction answers one. -/
theorem runningBlockAlwaysHasANextState : Obligations.RunningBlockAlwaysHasANextState := by
  intro s hrun
  cases hf : fetch s with
  | none => exact ⟨_, step_of_fetch_eq_none hrun hf⟩
  | some f =>
    cases hd : decode f with
    | error e => exact ⟨_, step_of_decode_error hrun hf hd⟩
    | ok i =>
      rw [step_of_decode_ok hrun hf hd]
      exact exec_eq_next i s

/-- Settles O34: the raised faults end in Error, and the one effect that halts is HLT's, which was decoded from its
byte. -/
theorem onlyHltHalts : Obligations.OnlyHltHalts := by
  intro s t hstep ht
  obtain ⟨hrun, ⟨-, rfl⟩ | ⟨f, hf, ⟨e, -, rfl⟩ | ⟨i, hi, hexec⟩⟩⟩ := step_cases hstep
  · cases ht
  · obtain ⟨r, hr⟩ := raiseDecode_run e f.b0 s
    rw [hr] at ht
    cases ht
  · obtain rfl := (exec_effect hexec).eq_hlt_of_halted hrun ht
    obtain ⟨-, hb0, -, -⟩ := fetch_some hf
    rw [hb0, ← OpcodeMap.byteOf_of_lookup (OpcodeMap.decode_ok hi).1]
    rfl

/-- Settles O38: a raised fault leaves the output list, and an instruction's effect leaves it or appends one byte. -/
theorem outputListOnlyGrows : Obligations.OutputListOnlyGrows := by
  intro s t hstep
  obtain ⟨-, ⟨-, rfl⟩ | ⟨f, -, ⟨e, -, rfl⟩ | ⟨i, -, hexec⟩⟩⟩ := step_cases hstep
  · exact .inl rfl
  · exact .inl (raiseDecode_out e f.b0 s)
  · exact (exec_effect hexec).out_grows

/-- Settles O27: a step comes to Error only by `raise`, which changes the run state alone. -/
theorem faultChangesOnlyTheRunState : Obligations.FaultChangesOnlyTheRunState := by
  intro s t r hstep ht
  obtain ⟨k, o, d, -, rfl⟩ := step_raisedFrom_of_error hstep ht
  cases ht
  exact ⟨rfl, rfl⟩

end Sys2Proof.Machine

/-! ## The faults of a step, in the order they are checked (30_encoding.md R68, R71; 60_exceptions.md R106) -/

namespace Sys2Proof.Machine

/-! ### Register operands -/

/-- The first register operand byte that names no register. -/
abbrev badOperand (i : Instr) : Option Byte := (regOperands i).find? fun b => 8 ≤ b.toNat

/-- An instruction is well-formed exactly when the check finds no bad byte. -/
theorem wellFormed_iff_badOperand_eq_none (i : Instr) : i.wellFormed = true ↔ badOperand i = none := by
  cases i <;> simp [Instr.wellFormed, badOperand, regOperands]

theorem lt_of_badOperand_eq_none {i : Instr} (h : badOperand i = none) : ∀ b ∈ regOperands i, b.toNat < 8 := by
  intro b hb
  simpa using List.find?_eq_none.1 h b hb

theorem withReg_of_find?_eq_some {op : Op} {a b : Byte} {k : Reg → Result}
    (h : [a].find? (fun b => 8 ≤ b.toNat) = some b) (s : State) : withReg op a s k = .next (badReg op b s) := by
  obtain rfl := List.mem_singleton.1 (List.mem_of_find?_eq_some h)
  exact withReg_of_ge (by simpa using List.find?_some h) s k

/-- Byte 2 is reported only where byte 1 names a register. -/
theorem withTwoRegs_of_find?_eq_some {op : Op} {a a' b : Byte} {k : Reg → Reg → Result}
    (h : [a, a'].find? (fun b => 8 ≤ b.toNat) = some b) (s : State) :
    withTwoRegs op a a' s k = .next (badReg op b s) := by
  by_cases ha : a.toNat < 8
  · rw [List.find?_cons_of_neg (by simpa using ha)] at h
    rw [withTwoRegs, withReg_of_lt ha]
    exact withReg_of_find?_eq_some h s
  · have hge : 8 ≤ a.toNat := Nat.not_lt.1 ha
    rw [List.find?_cons_of_pos (by simpa using hge)] at h
    obtain rfl := Option.some.inj h
    exact withReg_of_ge hge s _

theorem exec_of_badOperand_eq_some {i : Instr} {b : Byte} (h : badOperand i = some b) (s : State) :
    exec i s = .next (badReg i.op b s) := by
  cases i with
  | ldi | prn | push | pop | call =>
    simp only [exec]
    exact withReg_of_find?_eq_some h s
  | mul | add | cmp =>
    simp only [exec]
    exact withTwoRegs_of_find?_eq_some h s
  | ret | hlt => cases h

/-! ### CALL's return address -/

theorem exec_call_of_ge {ra : Byte} (h : ra.toNat < 8) {s : State} (hp : 256 ≤ s.pc.toNat + 2) :
    exec (.call ra) s = .next (raise .outOfBounds (some (opcodeByte .call)) (.addr (s.pc.toNat + 2)) s) := by
  rw [exec, execCall, withReg_of_lt h, if_neg (Nat.not_lt.2 hp)]

/-! ### The fault of an instruction -/

/-- The fault that the meaning of an instruction raises: a bad register operand, then CALL's return address. -/
def execFault (i : Instr) (s : State) : Option FaultRecord :=
  match badOperand i with
  | some b => some ⟨.invalidRegister, s.pc, some (opcodeByte i.op), .index b⟩
  | none =>
    if i.op = .call ∧ 256 ≤ s.pc.toNat + 2 then
      some ⟨.outOfBounds, s.pc, some (opcodeByte i.op), .addr (s.pc.toNat + 2)⟩
    else none

theorem exec_of_execFault_eq_some {i : Instr} {s : State} {r : FaultRecord} (h : execFault i s = some r) :
    exec i s = .next { s with run := .error r } := by
  unfold execFault at h
  split at h
  · rename_i b hb
    cases h
    exact exec_of_badOperand_eq_some hb s
  · rename_i hb
    split_ifs at h with hcall
    cases h
    obtain ⟨hop, hp⟩ := hcall
    cases i with
    | call ra => exact exec_call_of_ge (lt_of_badOperand_eq_none hb ra (List.mem_singleton_self ra)) hp
    | ldi | prn | mul | add | cmp | push | pop | ret | hlt => cases hop

/-- With legal operands, and a return address where one is needed, an instruction of a Running block completes. -/
theorem exec_completes {i : Instr} {s : State} (hregs : ∀ b ∈ regOperands i, b.toNat < 8)
    (hcall : i.op = .call → s.pc.toNat + 2 < 256) (hrun : s.run = .running) :
    ∃ t, exec i s = .next t ∧ ∀ r, t.run ≠ .error r := by
  cases i with
  | ldi ra imm => exact ⟨_, exec_ldi (hregs ra (by simp [regOperands])) imm s, by simp [hrun]⟩
  | prn ra => exact ⟨_, exec_prn (hregs ra (by simp [regOperands])) s, by simp [hrun]⟩
  | mul ra rb =>
    exact ⟨_, exec_mul (hregs ra (by simp [regOperands])) (hregs rb (by simp [regOperands])) s, by simp [hrun]⟩
  | add ra rb =>
    exact ⟨_, exec_add (hregs ra (by simp [regOperands])) (hregs rb (by simp [regOperands])) s, by simp [hrun]⟩
  | cmp ra rb =>
    exact ⟨_, exec_cmp (hregs ra (by simp [regOperands])) (hregs rb (by simp [regOperands])) s, by simp [hrun]⟩
  | push ra => exact ⟨_, exec_push (hregs ra (by simp [regOperands])) s, by simp [hrun]⟩
  | pop ra => exact ⟨_, exec_pop (hregs ra (by simp [regOperands])) s, by simp [hrun]⟩
  | call ra => exact ⟨_, exec_call (hregs ra (by simp [regOperands])) (hcall rfl), by simp [hrun]⟩
  | ret => exact ⟨_, exec_ret s, by simp [hrun]⟩
  | hlt => exact ⟨_, exec_hlt s, by simp⟩

theorem exec_of_execFault_eq_none {i : Instr} {s : State} (h : execFault i s = none) (hrun : s.run = .running) :
    ∃ t, exec i s = .next t ∧ ∀ r, t.run ≠ .error r := by
  unfold execFault at h
  split at h
  · cases h
  · rename_i hb
    split_ifs at h with hcall
    exact exec_completes (lt_of_badOperand_eq_none hb) (fun hop => Nat.not_le.1 fun hp => hcall ⟨hop, hp⟩) hrun

/-! ### The check order agrees with the decoder and the meanings -/

theorem firstFault_of_fetch_eq_none {s : State} (hf : fetch s = none) :
    firstFault s = some ⟨.outOfBounds, s.pc, none, .addr s.pc.toNat⟩ := by
  have h0 : byteAt s 0 = none := by
    cases hb : byteAt s 0 with
    | none => rfl
    | some b0 => rw [fetch_of_memRead hb] at hf; cases hf
  simp only [firstFault, h0]

/-- The opcode bytes that the check order lists are those of the map. -/
theorem not_mem_opcodes_iff {b : Byte} :
    b ∉ [0x82, 0x47, 0xA2, 0xA0, 0xA7, 0x45, 0x46, 0x50, 0x11, 0x01] ↔ opcodeMap.lookup b = none := by
  have hlist : [0x82, 0x47, 0xA2, 0xA0, 0xA7, 0x45, 0x46, 0x50, 0x11, 0x01] = Op.all.map opcodeMap.byteOf := rfl
  rw [hlist, OpcodeMap.lookup_eq_none, List.mem_map]
  exact ⟨fun h op heq => h ⟨op, Op.mem_all op, heq⟩, fun h ⟨op, _, heq⟩ => h op heq⟩

/-- An operand byte 1 that is consumed and absent is reported first (30_encoding.md R67). -/
theorem firstFault_of_no_byte_one {s : State} {op : Op} (h0 : byteAt s 0 = some (opcodeByte op))
    (h1 : byteAt s 1 = none) (ha : 1 ≤ op.arity) :
    firstFault s = some ⟨.outOfBounds, s.pc, some (opcodeByte op), .addr (s.pc.toNat + 1)⟩ := by
  cases op with
  | ldi | prn | mul | add | cmp | push | pop | call =>
    simp [firstFault, h0, h1, opcodeByte, opcodeMap, OpcodeMap.byteOf]
  | ret | hlt => cases ha

theorem firstFault_of_no_byte_two {s : State} {op : Op} {b1 : Byte} (h0 : byteAt s 0 = some (opcodeByte op))
    (h1 : byteAt s 1 = some b1) (h2 : byteAt s 2 = none) (ha : op.arity = 2) :
    firstFault s = some ⟨.outOfBounds, s.pc, some (opcodeByte op), .addr (s.pc.toNat + 2)⟩ := by
  cases op with
  | ldi | mul | add | cmp => simp [firstFault, h0, h1, h2, opcodeByte, opcodeMap, OpcodeMap.byteOf]
  | prn | push | pop | call | ret | hlt => cases ha

/-- With every consumed byte there, what is left of the check order is the instruction's own fault: the register bytes
in order, and CALL's return address, which is past memory exactly where byte 2 is absent. -/
theorem firstFault_eq_execFault {s : State} {i : Instr} (h0 : byteAt s 0 = some (opcodeByte i.op))
    (h1 : ∀ b, i.operands[0]? = some b → byteAt s 1 = some b)
    (h2 : ∀ b, i.operands[1]? = some b → byteAt s 2 = some b) : firstFault s = execFault i s := by
  simp only [firstFault, h0]
  cases i with
  | ldi ra imm =>
    by_cases ha : 8 ≤ ra.toNat <;>
      simp [execFault, badOperand, regOperands, Instr.op, opcodeByte, opcodeMap, OpcodeMap.byteOf, h1 _ rfl, h2 _ rfl,
        ha]
  | mul ra rb | add ra rb | cmp ra rb =>
    by_cases ha : 8 ≤ ra.toNat <;> by_cases hb : 8 ≤ rb.toNat <;>
      simp [execFault, badOperand, regOperands, Instr.op, opcodeByte, opcodeMap, OpcodeMap.byteOf, h1 _ rfl, h2 _ rfl,
        ha, hb]
  | prn ra | push ra | pop ra =>
    by_cases ha : 8 ≤ ra.toNat <;> cases byteAt s 2 <;>
      simp [execFault, badOperand, regOperands, Instr.op, opcodeByte, opcodeMap, OpcodeMap.byteOf, h1 _ rfl, ha]
  | call ra =>
    have habsent : byteAt s 2 = none ↔ 256 ≤ s.pc.toNat + 2 := memRead_eq_none
    by_cases ha : 8 ≤ ra.toNat
    · simp [execFault, badOperand, regOperands, Instr.op, opcodeByte, opcodeMap, OpcodeMap.byteOf, h1 _ rfl, ha]
    · by_cases hp : 256 ≤ s.pc.toNat + 2
      · simp [execFault, badOperand, regOperands, Instr.op, opcodeByte, opcodeMap, OpcodeMap.byteOf, h1 _ rfl, ha,
          habsent.2 hp, hp]
      · obtain ⟨b2, hb2⟩ := Option.ne_none_iff_exists'.1 (mt habsent.1 hp)
        simp [execFault, badOperand, regOperands, Instr.op, opcodeByte, opcodeMap, OpcodeMap.byteOf, h1 _ rfl, ha,
          hb2, hp]
  | ret | hlt => simp [execFault, badOperand, regOperands, Instr.op, opcodeByte, opcodeMap, OpcodeMap.byteOf]

theorem firstFault_of_decode_ok {s : State} {f : Fetched} {i : Instr} (hf : fetch s = some f) (hi : decode f = .ok i) :
    firstFault s = execFault i s := by
  obtain ⟨-, h0, h1, h2⟩ := fetch_some hf
  obtain ⟨hlookup, rest, hops⟩ := OpcodeMap.decode_ok hi
  have hread : ∀ (k : Nat) (b : Byte), i.operands[k]? = some b → [f.b1, f.b2][k]? = some (some b) := by
    intro k b hk
    have hmap : (i.operands.map some)[k]? = some (some b) := by rw [List.getElem?_map, hk]; rfl
    rw [hops, List.getElem?_append_left (List.getElem?_eq_some_iff.1 hmap).1, hmap]
  refine firstFault_eq_execFault (h0.trans (congrArg some (OpcodeMap.byteOf_of_lookup hlookup).symm))
    (fun b hb => ?_) (fun b hb => ?_)
  · exact h1.symm.trans (Option.some.inj (hread 0 b hb))
  · exact h2.symm.trans (Option.some.inj (hread 1 b hb))

theorem firstFault_of_decode_error {s : State} {f : Fetched} {e : DecodeError} (hf : fetch s = some f)
    (he : decode f = .error e) :
    ∃ r, firstFault s = some r ∧ raiseDecode e f.b0 s = { s with run := .error r } := by
  obtain ⟨-, h0, h1, h2⟩ := fetch_some hf
  rcases OpcodeMap.decode_error he with ⟨hb, rfl⟩ | ⟨op, hop, hmissing⟩
  · refine ⟨_, ?_, rfl⟩
    rw [firstFault, byteAt, Nat.add_zero, h0]
    exact if_pos (not_mem_opcodes_iff.2 hb)
  · have hb0 : opcodeByte op = f.b0 := OpcodeMap.byteOf_of_lookup hop
    have hbyte0 : byteAt s 0 = some (opcodeByte op) := h0.trans (congrArg some hb0.symm)
    rcases hmissing with ⟨ha, hn1, rfl⟩ | ⟨ha, hs1, hn2, rfl⟩
    · exact ⟨_, firstFault_of_no_byte_one hbyte0 (h1.symm.trans hn1) ha, by rw [hb0]; rfl⟩
    · obtain ⟨b1, hb1⟩ := Option.ne_none_iff_exists'.1 hs1
      exact ⟨_, firstFault_of_no_byte_two hbyte0 (h1.symm.trans hb1) (h2.symm.trans hn2) ha, by rw [hb0]; rfl⟩

/-! ### The statements -/

/-- Settles O26: the check order's fault is raised where the fetch or the decode fails; past them it is the fault of the
instruction, which completes where it has none. -/
theorem stepRaisesTheFirstFaultInOrder : Obligations.StepRaisesTheFirstFaultInOrder := by
  intro s hrun
  cases hf : fetch s with
  | none =>
    rw [firstFault_of_fetch_eq_none hf, step_of_fetch_eq_none hrun hf]
    refine ⟨?_, fun h => by cases h⟩
    rintro _ ⟨⟩
    rfl
  | some f =>
    cases hd : decode f with
    | error e =>
      obtain ⟨r, hfirst, hraise⟩ := firstFault_of_decode_error hf hd
      rw [hfirst, step_of_decode_error hrun hf hd, hraise]
      refine ⟨?_, fun h => by cases h⟩
      rintro _ ⟨⟩
      rfl
    | ok i =>
      rw [firstFault_of_decode_ok hf hd, step_of_decode_ok hrun hf hd]
      exact ⟨fun _ => exec_of_execFault_eq_some, fun h => exec_of_execFault_eq_none h hrun⟩

/-- Settles O23: the well-formedness check and the meanings look at the same bytes in the same order. -/
theorem badRegisterByteRaisesInvalidRegister : Obligations.BadRegisterByteRaisesInvalidRegister := by
  refine ⟨fun i => ?_, fun s i b h => exec_of_badOperand_eq_some h s⟩
  rw [← Bool.not_eq_true, wellFormed_iff_badOperand_eq_none]
  exact Option.ne_none_iff_exists'

/-- Settles O24: the operand is legal and the bounds check of the return address fails. -/
theorem callWithoutReturnAddressFaults : Obligations.CallWithoutReturnAddressFaults :=
  fun _ _ ha hp => exec_call_of_ge ha hp

end Sys2Proof.Machine

/-! ## What each instruction does and leaves (10_state.md R19; 40_ldi.md to 44_control.md) -/

namespace Sys2Proof.Machine

/-! ### Frames -/

theorem regsSameBut_setReg (r : Reg) (v : Byte) (s : State) : RegsSameBut [r] s (setReg r v s) := by
  intro r' hr'
  exact reg_setReg_other (fun h => hr' (List.mem_singleton.2 h.symm)) v s

theorem RegsSameBut.trans {rs rs' : List Reg} {s t u : State} (h : RegsSameBut rs s t) (h' : RegsSameBut rs' t u) :
    RegsSameBut (rs ++ rs') s u := by
  intro r hr
  rw [List.mem_append, not_or] at hr
  exact (h' r hr.2).trans (h r hr.1)

/-- POP's two writes: R7, then its destination. -/
theorem regsSameBut_setReg_pop (r : Reg) (v : Byte) (s : State) : RegsSameBut [7, r] s (setReg r v (pop s).2) :=
  (regsSameBut_pop s).trans (regsSameBut_setReg r v (pop s).2)

theorem memSameBut_sp_sub_one_push (v : Byte) (s : State) : MemSameBut (sp s - 1) s (push v s) :=
  fun _ ha => memRead_push_other ha v

theorem RegsSameBut.mono {rs rs' : List Reg} {s t : State} (h : RegsSameBut rs s t) (hsub : rs ⊆ rs') :
    RegsSameBut rs' s t :=
  fun r hr => h r fun hmem => hr (hsub hmem)

/-- The pc mux writes no register. -/
theorem RegsSameBut.mux {rs : List Reg} {s t : State} (h : RegsSameBut rs s t) (sel : Select) :
    RegsSameBut rs s (mux sel t) := by
  cases sel with
  | seq | jump | stop => exact h

/-- The pc mux stores nothing. -/
theorem MemSameBut.mux {a : Byte} {s t : State} (h : MemSameBut a s t) (sel : Select) :
    MemSameBut a s (mux sel t) := by
  cases sel with
  | seq | jump | stop => exact h

/-- A pop stores nothing. -/
theorem MemSameBut.pop {a : Byte} {s t : State} (h : MemSameBut a s t) : MemSameBut a s (pop t).2 := h

/-- An instruction writes no register but the ones 10_state.md R19 lists for it. -/
theorem Effect.reg_eq_of_not_written {s t : State} {i : Instr} (h : Effect s i t) {r : Reg}
    (hr : r.val ∉ writtenRegs i) : reg r t = reg r s := by
  have hother : ∀ {b : Byte} {hb : b.toNat < 8}, b.toNat ∈ writtenRegs i → r ∉ [(⟨b.toNat, hb⟩ : Reg)] := by
    intro b hb hmem heq
    rw [List.mem_singleton.1 heq] at hr
    exact hr hmem
  have hsp : 7 ∈ writtenRegs i → r ∉ [(7 : Reg)] := by
    intro hmem heq
    rw [List.mem_singleton.1 heq] at hr
    exact hr hmem
  cases h with
  | ldi | mul | add => exact regsSameBut_setReg _ _ s r (hother (by simp [writtenRegs]))
  | push | call => exact (regsSameBut_push _ s).mux _ r (hsp (by simp [writtenRegs]))
  | ret => exact regsSameBut_pop s r (hsp (by simp [writtenRegs]))
  | pop =>
    refine regsSameBut_setReg_pop _ _ s r (List.not_mem_append (s := [7]) (hsp ?_) (hother ?_))
    · simp [writtenRegs]
    · simp [writtenRegs]
  | prn | cmp | hlt | badReg | badCall => rfl

theorem Effect.memSame {s t : State} {i : Instr} (h : Effect s i t) (hst : stores i = false) : MemSame s t := by
  cases h with
  | push | call | badCall => cases hst
  | ldi | prn | mul | add | cmp | pop | ret | hlt | badReg => exact fun _ => rfl

/-- The one byte an instruction may store is at the decremented stack pointer; a fault stores none. -/
theorem Effect.memSameBut {s t : State} {i : Instr} (h : Effect s i t) : MemSameBut (sp s - 1) s t := by
  cases h with
  | push | call => exact memSameBut_sp_sub_one_push _ s
  | ldi | prn | mul | add | cmp | pop | ret | hlt | badReg | badCall => exact fun _ _ => rfl

/-! ### The statements: one instruction -/

/-- Settles O39: read off the effects. -/
theorem onlyListedRegistersChange : Obligations.OnlyListedRegistersChange :=
  fun _ _ _ h _ hr => (exec_effect h).reg_eq_of_not_written hr

/-- Settles O40: read off the effects, the address being the DEC of the old stack pointer. -/
theorem onlyPushAndCallStoreOneByte : Obligations.OnlyPushAndCallStoreOneByte := by
  intro i s t h
  rw [alu_dec]
  exact ⟨(exec_effect h).memSame, fun _ => (exec_effect h).memSameBut⟩

/-- Settles O13: the effect is one register write and the advance. -/
theorem ldiLoadsItsImmediate : Obligations.LdiLoadsItsImmediate :=
  fun s _ imm h => ⟨_, exec_ldi h imm s, reg_setReg_same _ imm s, regsSameBut_setReg _ imm s, advance_pc _ _, rfl, rfl,
    rfl, rfl, fun _ => rfl⟩

/-- Settles O14: the effect is one output event and the advance. -/
theorem prnEmitsTheRegister : Obligations.PrnEmitsTheRegister :=
  fun s _ h => ⟨_, exec_prn h s, emit_out _ s, fun _ _ => rfl, advance_pc _ _, rfl, rfl, rfl, fun _ => rfl⟩

/-- Settles O15: the register written holds the product of the two old values. -/
theorem mulMultipliesMod256 : Obligations.MulMultipliesMod256 := by
  intro s ra rb ha hb
  refine ⟨_, exec_mul ha hb s, ?_, regsSameBut_setReg _ _ s, advance_pc _ _, rfl, rfl, rfl, rfl, fun _ => rfl⟩
  rw [reg_advance, reg_setReg_same, BitVec.toNat_mul]

/-- Settles O16: the register written holds the sum of the two old values. -/
theorem addAddsMod256 : Obligations.AddAddsMod256 := by
  intro s ra rb ha hb
  refine ⟨_, exec_add ha hb s, ?_, regsSameBut_setReg _ _ s, advance_pc _ _, rfl, rfl, rfl, rfl, fun _ => rfl⟩
  rw [reg_advance, reg_setReg_same, BitVec.toNat_add]

/-- Settles O17: FL is the comparison of the two registers. -/
theorem cmpWritesTheComparison : Obligations.CmpWritesTheComparison :=
  fun s _ _ ha hb => ⟨_, exec_cmp ha hb s, setFlags_fl _ s, fun _ _ => rfl, advance_pc _ _, rfl, rfl, rfl, fun _ => rfl⟩

/-- Settles O18: the effect is a push of the old register value. -/
theorem pushStoresTheRegister : Obligations.PushStoresTheRegister :=
  fun s ra h => ⟨_, exec_push h s, sp_push (reg ⟨ra.toNat, h⟩ s) s, fun hm => memRead_push_same hm _,
    (memSameBut_sp_sub_one_push _ s).mux _, (regsSameBut_push _ s).mux _, advance_pc _ _, rfl, rfl, rfl, rfl⟩

/-- Settles O19: the register is written after the increment, so it is R7's value only where it is not R7. -/
theorem popLoadsTheRegister : Obligations.PopLoadsTheRegister := by
  intro s ra h
  refine ⟨_, exec_pop h s, ?_, fun hne => ?_, regsSameBut_setReg_pop _ _ s, fun _ => rfl, advance_pc _ _, rfl, rfl, rfl,
    rfl⟩
  · rw [reg_advance, reg_setReg_same, memRead_toNat]
  · have hother : (⟨ra.toNat, h⟩ : Reg) ≠ Config.spIndex := fun heq => hne (congrArg Fin.val heq)
    rw [sp, reg_advance, reg_setReg_other hother]
    exact sp_pop s

/-- Settles O20: the effect is a push of pc + 2 and a jump to the register as it is after it. -/
theorem callPushesReturnAndJumps : Obligations.CallPushesReturnAndJumps := by
  intro s ra h hp
  refine ⟨_, exec_call h hp, sp_push (BitVec.ofNat 8 (s.pc.toNat + 2)) s, ?_, fun hm => ⟨_, memRead_push_same hm _, ?_⟩,
    (memSameBut_sp_sub_one_push _ s).mux _, (regsSameBut_push _ s).mux _, rfl, rfl, rfl, rfl⟩
  · have hidx : Config.spIndex = (⟨ra.toNat, h⟩ : Reg) ↔ ra.toNat = 7 := Fin.ext_iff.trans eq_comm
    rw [toNat_mux_jump_pc, reg_push]
    simp only [hidx]
  · rw [BitVec.toNat_ofNat, Nat.mod_eq_of_lt hp]

/-- Settles O21: the effect is a pop into pc. -/
theorem retPopsIntoPc : Obligations.RetPopsIntoPc :=
  fun s => ⟨_, exec_ret s, ⟨_, memRead_toNat (sp s) s, toNat_mux_jump_pc _ _⟩, sp_pop s, regsSameBut_pop s,
    fun _ => rfl, rfl, rfl, rfl, rfl⟩

/-- Settles O22: the effect is the halt alone. -/
theorem hltHaltsTheBlock : Obligations.HltHaltsTheBlock :=
  fun s => ⟨_, exec_hlt s, mux_stop_run s, mux_stop_pc s, fun _ _ => rfl, fun _ => rfl, rfl, rfl, rfl⟩

/-! ### A pop after a push -/

/-- A pop reads what a push has stored. -/
theorem portRead_sp_push {s : State} (hm : s.mem.wf = true) (v : Byte) : portRead (sp (push v s)) (push v s) = v :=
  Option.some.inj ((memRead_toNat _ _).symm.trans (memRead_sp_push hm v))

/-- The increment undoes the decrement, wrapped or not. -/
theorem sp_pop_push (v : Byte) (s : State) : sp (pop (push v s)).2 = sp s := by
  rw [sp_pop, sp_push, BitVec.sub_add_cancel]

theorem reg_pop_push (r : Reg) (v : Byte) (s : State) : reg r (pop (push v s)).2 = reg r s := by
  by_cases h : Config.spIndex = r
  · rw [← h]
    exact sp_pop_push v s
  · rw [reg_pop, if_neg h, reg_push, if_neg h]

/-! ### The statements: an instruction and what follows it -/

/-- Where a byte can be read at pc, the fetch delivers it as the opcode byte. -/
theorem fetch_b0_of_memRead {s : State} {b : Byte} (h : memRead s.pc.toNat s = some b) :
    ∃ f, fetch s = some f ∧ f.b0 = b :=
  ⟨_, fetch_of_memRead h, rfl⟩

/-- Settles O35: in both cases pc comes to the address that the push stored to. -/
theorem storedByteIsSeenByTheNextFetch : Obligations.StoredByteIsSeenByTheNextFetch := by
  refine ⟨fun s ra h hm hpc => ?_, fun s hm hp => ?_⟩
  · have hnext : (advance .push (push (reg ⟨ra.toNat, h⟩ s) s)).pc.toNat = (sp s - 1).toNat := by
      rw [← hpc]
      exact toNat_advance_pc (op := .push) (s := s) (by have : Op.width .push = 2 := rfl; omega)
    obtain ⟨f, hf, hb⟩ := fetch_b0_of_memRead (s := advance .push (push (reg ⟨ra.toNat, h⟩ s) s))
      (by rw [hnext]; exact memRead_push_same hm _)
    exact ⟨_, f, exec_push h s, hf, hb⟩
  · have h7 : (7 : Byte).toNat < 8 := by decide
    obtain ⟨f, hf, hb⟩ := fetch_b0_of_memRead (s := mux (.jump (sp (callPushed s))) (callPushed s))
      (by rw [toNat_mux_jump_pc]; exact memRead_sp_push hm _)
    refine ⟨_, f, exec_call h7 hp, hf, ?_⟩
    rw [hb, BitVec.toNat_ofNat, Nat.mod_eq_of_lt hp]

/-- Settles O41: the pop reads the byte pushed and undoes the decrement, and then the register is written. -/
theorem pushThenPopRoundTrip : Obligations.PushThenPopRoundTrip := by
  intro s ra rb ha hb hm
  refine ⟨_, _, exec_push ha s, exec_pop hb _, ?_, fun hne => ?_, ?_, ?_, ?_, rfl⟩
  · rw [reg_advance, reg_setReg_same]
    exact portRead_sp_push hm _
  · have hother : (⟨rb.toNat, hb⟩ : Reg) ≠ Config.spIndex := fun heq => hne (congrArg Fin.val heq)
    rw [sp, reg_advance, reg_setReg_other hother]
    exact sp_pop_push (reg ⟨ra.toNat, ha⟩ s) s
  · refine (((regsSameBut_push _ s).mux _).trans (regsSameBut_setReg_pop _ _ _)).mono ?_
    simp
  · exact (memSameBut_sp_sub_one_push _ s).mux _
  · rw [advance_pc, setReg_pc, pop_pc, advance_pc, push_pc, BitVec.add_assoc]
    rfl

/-- Settles O42: the pop reads the return address pushed and undoes the decrement. -/
theorem callThenRetRoundTrip : Obligations.CallThenRetRoundTrip := by
  intro s ra h hp hm
  refine ⟨_, _, exec_call h hp, exec_ret _, ?_, fun r _ => ?_, ?_, rfl, rfl, rfl⟩
  · rw [toNat_mux_jump_pc]
    refine (congrArg BitVec.toNat (portRead_sp_push hm _)).trans ?_
    rw [BitVec.toNat_ofNat, Nat.mod_eq_of_lt hp]
  · exact reg_pop_push r (BitVec.ofNat 8 (s.pc.toNat + 2)) s
  · exact ((memSameBut_sp_sub_one_push _ s).mux _).pop.mux _

end Sys2Proof.Machine

/-! ## Reset, the ALU's laws, the stack's bounds and the boot (42_alu.md; 43_stack.md R91; 70_reset_and_hazards.md) -/

namespace Sys2Proof.Machine

/-! ### CMP and the flag values -/

theorem alu_cmp (a b : Byte) : alu .cmp a b = compareFlags a b := rfl

theorem compareFlags_eq_flagE_iff {a b : Byte} : compareFlags a b = flagE ↔ a.toNat = b.toNat := by
  rcases compareFlags_cases a b with ⟨h, hc⟩ | ⟨h, hc⟩ | ⟨h, hc⟩
  · exact iff_of_true hc h
  · exact iff_of_false (by rw [hc]; decide) (by omega)
  · exact iff_of_false (by rw [hc]; decide) (by omega)

theorem compareFlags_eq_flagG_iff {a b : Byte} : compareFlags a b = flagG ↔ b.toNat < a.toNat := by
  rcases compareFlags_cases a b with ⟨h, hc⟩ | ⟨h, hc⟩ | ⟨h, hc⟩
  · exact iff_of_false (by rw [hc]; decide) (by omega)
  · exact iff_of_true hc h
  · exact iff_of_false (by rw [hc]; decide) (by omega)

theorem compareFlags_eq_flagL_iff {a b : Byte} : compareFlags a b = flagL ↔ a.toNat < b.toNat := by
  rcases compareFlags_cases a b with ⟨h, hc⟩ | ⟨h, hc⟩ | ⟨h, hc⟩
  · exact iff_of_false (by rw [hc]; decide) (by omega)
  · exact iff_of_false (by rw [hc]; decide) (by omega)
  · exact iff_of_true hc h

/-! ### The boot -/

theorem all_isByte_iff {vs : List Nat} : vs.all (fun v => decide (v < 256)) = true ↔ ∀ v ∈ vs, v < 256 := by
  simp

/-- Everything a launch that starts has done. -/
theorem launch_eq_ok_iff {rInit : Fin 7 → Byte} {vs : List Nat} {t : State} :
    launch rInit vs = .ok t ↔ (vs.length ≤ 256 ∧ ∀ v ∈ vs, v < 256) ∧
      t = pokeBytes 0 (vs.map (BitVec.ofNat 8)) (State.resetWith rInit) := by
  unfold launch
  by_cases hbytes : ∀ v ∈ vs, v < 256
  · rw [if_pos (all_isByte_iff.2 hbytes)]
    by_cases hlen : vs.length ≤ 256
    · rw [loadProgram_of_le (by rwa [List.length_map]), Except.ok.injEq]
      exact ⟨fun h => ⟨⟨hlen, hbytes⟩, h.symm⟩, fun h => h.2.symm⟩
    · rw [loadProgram_of_gt (by rw [List.length_map]; omega)]
      exact iff_of_false (by simp) (fun h => hlen h.1.1)
  · rw [if_neg (mt all_isByte_iff.1 hbytes)]
    exact iff_of_false (by simp) (fun h => hbytes h.1.2)

/-- A program that fits reads back from address 0 on, each value as the byte it is. -/
theorem memRead_pokeBytes_map_ofNat {vs : List Nat} {k v : Nat} {s : State} (hm : s.mem.wf = true)
    (hlen : vs.length ≤ 256) (hk : vs[k]? = some v) :
    memRead k (pokeBytes 0 (vs.map (BitVec.ofNat 8)) s) = some (BitVec.ofNat 8 v) := by
  have hmap : (vs.map (BitVec.ofNat 8))[k]? = some (BitVec.ofNat 8 v) := by rw [List.getElem?_map, hk]; rfl
  have hread := memRead_pokeBytes_of_getElem?_eq_some (a := 0) hm (by rwa [Nat.zero_add, List.length_map]) hmap
  rwa [Nat.zero_add] at hread

/-! ### The statements -/

/-- Settles O2: every field is the one `State.resetWith` names. -/
theorem resetLeavesEveryField : Obligations.ResetLeavesEveryField := by
  rintro rInit _ rfl
  exact ⟨rfl, rfl, rfl, rfl, rfl, rfl, rfl, sp_resetWith rInit, resetWith_pc rInit, resetWith_fl rInit,
    resetWith_run rInit, fun _ h => memRead_resetWith h rInit, resetWith_out rInit, resetWith_mode rInit, rfl⟩

/-- Settles O7: the three cases of the comparison exclude each other, and so do the flag values. -/
theorem aluCompareSetsOneFlag : Obligations.AluCompareSetsOneFlag := by
  intro a b
  refine ⟨compareFlags_eq_flagE_iff, compareFlags_eq_flagG_iff, compareFlags_eq_flagL_iff, ?_⟩
  rcases compareFlags_cases a b with ⟨-, hc⟩ | ⟨-, hc⟩ | ⟨-, hc⟩
  · exact .inl hc
  · exact .inr (.inl hc)
  · exact .inr (.inr hc)

/-- Settles O8: ADD and MUL are the ring's own operations on bytes. -/
theorem aluAddAndMulLaws : Obligations.AluAddAndMulLaws := by
  intro a b c
  simp only [alu_add, alu_mul]
  exact ⟨BitVec.add_comm a b, BitVec.add_assoc a b c, BitVec.mul_zero, BitVec.zero_mul, BitVec.mul_one a,
    BitVec.one_mul a, rfl⟩

/-- Settles O12: at both bounds the wrapped decrement and increment are computed. -/
theorem stackPointerWrapsWithoutFault : Obligations.StackPointerWrapsWithoutFault := by
  refine fun s v => ⟨fun h => ?_, fun h => ?_, push_run v s, pop_run s⟩
  · have htop : sp (push v s) = 0xFF := by rw [sp_push, h]; rfl
    refine ⟨htop, fun hm => ?_⟩
    have hread := memRead_sp_push hm v
    rwa [htop] at hread
  · have hread := memRead_sp_eq_pop_value s
    rw [h] at hread
    exact ⟨hread, by rw [sp_pop, h]; rfl⟩

/-- Settles O49: a launch that starts is the load into the reset state, whose bytes read back. -/
theorem launchStartsExactlyOnByteProgramsThatFit : Obligations.LaunchStartsExactlyOnByteProgramsThatFit := by
  intro rInit vs
  refine ⟨⟨fun ⟨_, h⟩ => (launch_eq_ok_iff.1 h).1, fun h => ⟨_, launch_eq_ok_iff.2 ⟨h, rfl⟩⟩⟩, fun t h => ?_⟩
  obtain ⟨⟨hlen, hbytes⟩, rfl⟩ := launch_eq_ok_iff.1 h
  have hread := fun k v hk => memRead_pokeBytes_map_ofNat (k := k) (v := v) (resetWith_mem_wf rInit) hlen hk
  obtain ⟨m, hpoke, -⟩ := pokeBytes_fields 0 (vs.map (BitVec.ofNat 8)) (State.resetWith rInit)
  rw [hpoke] at hread ⊢
  refine ⟨rfl, rfl, rfl, fun k v hk => ⟨_, hread k v hk, ?_⟩⟩
  rw [BitVec.toNat_ofNat, Nat.mod_eq_of_lt (hbytes v (List.mem_of_getElem? hk))]

/-- Settles O50: `reconstruct` answers the reset state in each stopped case. -/
theorem resetAppliesToStoppedBlocksOnly : Obligations.ResetAppliesToStoppedBlocksOnly := by
  intro rInit s
  refine ⟨fun h => by rw [reconstruct, h], fun h => ⟨State.resetWith rInit, ?_, rfl, resetWith_run rInit,
    fun _ ha => memRead_resetWith ha rInit⟩⟩
  cases hrun : s.run with
  | running => exact absurd hrun h
  | halted => rw [reconstruct, hrun]
  | error => rw [reconstruct, hrun]

end Sys2Proof.Machine

/-! ## Assembly text (30_encoding.md R61) -/

namespace Sys2Proof.Machine

/-! ### Decimal -/

theorem digitValue_digitChar (d : Nat) : digitValue (digitChar d) = some (d % 10) := by
  have hdigits : ∀ n < 10, digitValue (Char.ofNat ('0'.toNat + n)) = some n := by decide
  exact hdigits (d % 10) (Nat.mod_lt d (by decide))

theorem decimalFrom_digitChar_cons (n d : Nat) (cs : List Char) :
    decimalFrom n (digitChar d :: cs) = decimalFrom (10 * n + d % 10) cs := by
  rw [decimalFrom, digitValue_digitChar]

/-- A byte's decimal digits, read after 0, are its value. -/
theorem decimalFrom_decimalOf (b : Byte) : decimalFrom 0 (decimalOf b) = some b.toNat := by
  have hb : b.toNat < 256 := b.isLt
  unfold decimalOf
  split_ifs with h10 h100
  · rw [decimalFrom_digitChar_cons, decimalFrom]
    exact congrArg some (by omega)
  · rw [decimalFrom_digitChar_cons, decimalFrom_digitChar_cons, decimalFrom]
    exact congrArg some (by omega)
  · rw [decimalFrom_digitChar_cons, decimalFrom_digitChar_cons, decimalFrom_digitChar_cons, decimalFrom]
    exact congrArg some (by omega)

/-- Decimal digits are not empty. -/
theorem decimalOf_ne_nil (b : Byte) : decimalOf b ≠ [] := by
  unfold decimalOf
  split_ifs <;> exact List.cons_ne_nil _ _

theorem parseImm_decimalOf (b : Byte) : parseImm (decimalOf b) = some b := by
  obtain ⟨c, cs, hcs⟩ := List.exists_cons_of_ne_nil (decimalOf_ne_nil b)
  have hvalue : decimalFrom 0 (c :: cs) = some b.toNat := hcs ▸ decimalFrom_decimalOf b
  rw [hcs, parseImm]
  simp [hvalue, b.isLt]

theorem parseReg_regName {b : Byte} (h : b.toNat < 8) : parseReg (regName b) = some b := by
  have hdigit : regName b = ['R', digitChar b.toNat] := by rw [regName, decimalOf, if_pos (by omega)]
  rw [hdigit, parseReg, digitValue_digitChar, Nat.mod_eq_of_lt (by omega)]
  simp [h]

/-! ### Tokens -/

/-- A token that its statement keeps whole: not empty, with no space or comma in it. -/
def Plain (t : Token) : Prop := t ≠ [] ∧ ∀ c ∈ t, c ≠ ' ' ∧ c ≠ ','

theorem digitChar_ne_space_comma (d : Nat) : digitChar d ≠ ' ' ∧ digitChar d ≠ ',' := by
  have hdigit := digitValue_digitChar d
  constructor
  · intro h
    rw [h] at hdigit
    cases hdigit
  · intro h
    rw [h] at hdigit
    cases hdigit

theorem eq_digitChar_of_mem_decimalOf {c : Char} {b : Byte} (hc : c ∈ decimalOf b) : ∃ d, c = digitChar d := by
  unfold decimalOf at hc
  split_ifs at hc <;> simp only [List.mem_cons, List.not_mem_nil, or_false] at hc
  · exact ⟨_, hc⟩
  · obtain h | h := hc <;> exact ⟨_, h⟩
  · obtain h | h | h := hc <;> exact ⟨_, h⟩

theorem plain_decimalOf (b : Byte) : Plain (decimalOf b) := by
  refine ⟨decimalOf_ne_nil b, fun c hc => ?_⟩
  obtain ⟨d, rfl⟩ := eq_digitChar_of_mem_decimalOf hc
  exact digitChar_ne_space_comma d

theorem plain_regName (b : Byte) : Plain (regName b) := by
  refine ⟨List.cons_ne_nil _ _, fun c hc => ?_⟩
  rcases List.mem_cons.1 hc with rfl | hc
  · decide
  · exact (plain_decimalOf b).2 c hc

theorem plain_mnemonic (op : Op) : Plain (Op.mnemonic op) := by
  cases op <;> simp [Plain, Op.mnemonic]

theorem flushToken_of_ne_nil {t : Token} (h : t ≠ []) : flushToken t = [t] := by
  obtain ⟨c, cs, rfl⟩ := List.exists_cons_of_ne_nil h
  rfl

/-- Characters that neither separate nor stand alone go to the token begun. -/
theorem tokensFrom_append {t : List Char} (h : ∀ c ∈ t, c ≠ ' ' ∧ c ≠ ',') (rest cur : List Char) :
    tokensFrom (t ++ rest) cur = tokensFrom rest (cur ++ t) := by
  induction t generalizing cur with
  | nil => rw [List.nil_append, List.append_nil]
  | cons c t ih =>
    obtain ⟨hspace, hcomma⟩ := h c List.mem_cons_self
    rw [List.cons_append, tokensFrom, if_neg hspace, if_neg hcomma, ih fun c' hc' => h c' (List.mem_cons_of_mem c hc')]
    rw [List.append_assoc, List.singleton_append]

/-- Plain tokens written after spaces are the tokens that follow the one begun. -/
theorem tokensFrom_flatMap {args : List Token} (h : ∀ a ∈ args, Plain a) (cur : Token) (hcur : cur ≠ []) :
    tokensFrom (args.flatMap fun a => ' ' :: a) cur = cur :: args := by
  induction args generalizing cur with
  | nil => exact flushToken_of_ne_nil hcur
  | cons a args ih =>
    obtain ⟨ha, hchars⟩ := h a List.mem_cons_self
    rw [List.flatMap_cons, List.cons_append, tokensFrom, if_pos rfl, flushToken_of_ne_nil hcur,
      tokensFrom_append hchars, List.nil_append, ih (fun b hb => h b (List.mem_cons_of_mem a hb)) a ha]
    rfl

theorem tokensFrom_statement (op : Op) {args : List Token} (h : ∀ a ∈ args, Plain a) :
    tokensFrom (Op.statement op args) [] = Op.mnemonic op :: args := by
  obtain ⟨hne, hchars⟩ := plain_mnemonic op
  rw [Op.statement, tokensFrom_append hchars, List.nil_append, tokensFrom_flatMap h _ hne]

/-! ### Statements -/

theorem find?_mnemonic (op : Op) : Op.all.find? (fun op' => decide (Op.mnemonic op' = Op.mnemonic op)) = some op := by
  cases op <;> decide

theorem splitOperands_of_length_le_two {args : List Token} (h : args.length ≤ 2) : splitOperands args = some args := by
  match args with
  | [] | [_] | [_, _] => rfl
  | _ :: _ :: _ :: _ => simp at h

/-- A statement written with at most two plain operands is read as its operation on them. -/
theorem parseStatement_statement (op : Op) {args : List Token} (h : ∀ a ∈ args, Plain a) (hlen : args.length ≤ 2) :
    parseStatement (Op.statement op args) = parseOperands op args := by
  rw [parseStatement, tokensFrom_statement op h]
  simp only [find?_mnemonic, splitOperands_of_length_le_two hlen]

theorem parseR_regName (mk : Byte → Instr) {ra : Byte} (h : ra.toNat < 8) : parseR mk [regName ra] = some (mk ra) := by
  rw [parseR, parseReg_regName h, Option.map_some]

theorem parseTwo_regName {p : Token → Option Byte} (mk : Byte → Byte → Instr) {ra b : Byte} {t : Token}
    (ha : ra.toNat < 8) (hb : p t = some b) : parseTwo p mk [regName ra, t] = some (mk ra b) := by
  simp only [parseTwo, parseReg_regName ha, hb]

/-! ### The statement -/

/-- Settles O47: the tokens of a written statement are its mnemonic and its operands, and each operand reads back. -/
theorem assemblyStatementRoundTrip : Obligations.AssemblyStatementRoundTrip := by
  intro i hwf
  have hregs := lt_of_badOperand_eq_none ((wellFormed_iff_badOperand_eq_none i).1 hwf)
  cases i with
  | ldi ra imm =>
    rw [printStatement, parseStatement_statement _ (by simp [plain_regName, plain_decimalOf]) (by simp)]
    exact parseTwo_regName .ldi (hregs ra (by simp [regOperands])) (parseImm_decimalOf imm)
  | mul ra rb | add ra rb | cmp ra rb =>
    rw [printStatement, parseStatement_statement _ (by simp [plain_regName]) (by simp)]
    exact parseTwo_regName _ (hregs ra (by simp [regOperands])) (parseReg_regName (hregs rb (by simp [regOperands])))
  | prn ra | push ra | pop ra | call ra =>
    rw [printStatement, parseStatement_statement _ (by simp [plain_regName]) (by simp)]
    exact parseR_regName _ (hregs ra (by simp [regOperands]))
  | ret | hlt =>
    rw [printStatement, parseStatement_statement _ (by simp) (by simp)]
    rfl

end Sys2Proof.Machine
